-- ==== Sys2Proof/Word.lean ====
section
/-! DEFINITION. The word types of the machine and their plainest arithmetic (00_scope.md R6, R7). -/

namespace Sys2Proof

/-- One byte of memory or of an encoding (20_memory.md R51). -/
abbrev Byte := BitVec 8

/-- A 16-bit lane (00_scope.md R6). -/
abbrev Lane := BitVec 16

/-- A general-purpose register, an address or the instruction pointer at its full width. -/
abbrev Word := BitVec 64

/-- A whole vector register at the widest `MAXVL` (10_state.md R23; log 24). -/
abbrev VReg := BitVec 512

end Sys2Proof
end

