-- ==== Sys2Proof/Syntax.lean ====
section
/-! DEFINITION. The instructions: the seven forms of 00_scope.md R2, one constructor for each row of the
opcode table. A term keeps every bit of its encoding that the opcode string leaves free, so that one
term is one byte sequence: the ignored bits (W, REX.R on F-MMX, ...) are kept as spelled and have no
effect (93_implementation_defined.md U22). Register-extension bits are kept as their true values, not
complemented as the prefixes store them. -/

namespace Sys2Proof

/-- The processor modes the spec names (60_exceptions.md R161). -/
inductive Mode
  | real
  | v86
  | prot16
  | prot32
  | bits64
  deriving DecidableEq, Repr

/-- The segment registers (10_state.md R26). -/
inductive Seg
  | es
  | cs
  | ss
  | ds
  | fs
  | gs
  deriving DecidableEq, Repr

/-- The four bits of a REX prefix `0100WRXB` (30_encoding.md R74). -/
structure Rex where
  w : Bool
  r : Bool
  x : Bool
  b : Bool
  deriving DecidableEq, Repr

/-- The bytes that may stand before an opcode (30_encoding.md R71, R74, R98). -/
inductive Prefix
  | opSize
  | addrSize
  | lock
  | repne
  | rep
  | seg (s : Seg)
  | rex (r : Rex)
  deriving DecidableEq, Repr

/-- The free fields of a three-byte VEX prefix (30_encoding.md R75). -/
structure Vex where
  r : Bool
  x : Bool
  b : Bool
  w : Bool
  vvvv : BitVec 4
  deriving DecidableEq, Repr

/-- The free fields of an EVEX prefix (30_encoding.md R77); `rr` is R', `vv` is V'. -/
structure Evex where
  r : Bool
  x : Bool
  b : Bool
  rr : Bool
  w : Bool
  vvvv : BitVec 4
  z : Bool
  vv : Bool
  aaa : BitVec 3
  deriving DecidableEq, Repr

/-- The displacement that mod = 00, 01 or 10 gives with 32- or 64-bit addressing (30_encoding.md R80). -/
inductive Disp
  | none
  | d8 (v : BitVec 8)
  | d32 (v : BitVec 32)
  deriving DecidableEq, Repr

/-- The displacement that mod = 00, 01 or 10 gives with 16-bit addressing (30_encoding.md R84). -/
inductive Disp16
  | none
  | d8 (v : BitVec 8)
  | d16 (v : BitVec 16)
  deriving DecidableEq, Repr

/-- A ModRM memory operand (30_encoding.md R80, R81, R83, R84). `disp32` is mod = 00, rm = 101:
RIP-relative in 64-bit mode, absolute elsewhere. `sibDisp32` is the SIB form without a base. -/
inductive Mem
  | base (rm : BitVec 3) (d : Disp)
  | disp32 (v : BitVec 32)
  | sib (scale : BitVec 2) (index base : BitVec 3) (d : Disp)
  | sibDisp32 (scale : BitVec 2) (index : BitVec 3) (v : BitVec 32)
  | base16 (rm : BitVec 3) (d : Disp16)
  | disp16 (v : BitVec 16)
  deriving DecidableEq, Repr

/-- The operand that the mod and rm fields of ModRM name (30_encoding.md R79). -/
inductive RM
  | reg (rm : BitVec 3)
  | mem (m : Mem)
  deriving DecidableEq, Repr

/-- The instructions. `pre` is every prefix byte before the opcode bytes (legacy forms) or before the
VEX or EVEX prefix, in order; `reg` is the ModRM reg field (30_encoding.md R71, R85). -/
inductive Instr
  /-- PMULHRSW mm1, mm2/m64 (R120). -/
  | pmulhrswMm (pre : List Prefix) (reg : BitVec 3) (rm : RM)
  /-- PMULHRSW xmm1, xmm2/m128 (R121). -/
  | pmulhrswXmm (pre : List Prefix) (reg : BitVec 3) (rm : RM)
  /-- VPMULHRSW xmm1, xmm2, xmm3/m128, VEX-encoded (R130). -/
  | vpmulhrswVex128 (pre : List Prefix) (v : Vex) (reg : BitVec 3) (rm : RM)
  /-- VPMULHRSW ymm1, ymm2, ymm3/m256, VEX-encoded (R131). -/
  | vpmulhrswVex256 (pre : List Prefix) (v : Vex) (reg : BitVec 3) (rm : RM)
  /-- VPMULHRSW xmm1 {k1}{z}, xmm2, xmm3/m128, EVEX-encoded (R141). -/
  | vpmulhrswEvex128 (pre : List Prefix) (e : Evex) (reg : BitVec 3) (rm : RM)
  /-- VPMULHRSW ymm1 {k1}{z}, ymm2, ymm3/m256, EVEX-encoded (R142). -/
  | vpmulhrswEvex256 (pre : List Prefix) (e : Evex) (reg : BitVec 3) (rm : RM)
  /-- VPMULHRSW zmm1 {k1}{z}, zmm2, zmm3/m512, EVEX-encoded (R143). -/
  | vpmulhrswEvex512 (pre : List Prefix) (e : Evex) (reg : BitVec 3) (rm : RM)
  deriving DecidableEq, Repr

/-- The seven forms of 00_scope.md R2. -/
inductive Form
  | mmx
  | sse
  | vex128
  | vex256
  | evex128
  | evex256
  | evex512
  deriving DecidableEq, Repr

/-- The form an instruction is. -/
def Instr.form : Instr → Form
  | .pmulhrswMm .. => .mmx
  | .pmulhrswXmm .. => .sse
  | .vpmulhrswVex128 .. => .vex128
  | .vpmulhrswVex256 .. => .vex256
  | .vpmulhrswEvex128 .. => .evex128
  | .vpmulhrswEvex256 .. => .evex256
  | .vpmulhrswEvex512 .. => .evex512

end Sys2Proof
end

