-- ==== Sys2Proof/Config.lean ====
section
/-! DEFINITION. What one implementation fixes: the parameters of 00_scope.md R5, as plain data that
`State` carries and no step changes (log 3), and the one value the spec leaves open (log 16). `Translate` and `SegBase` are `State.regions` and
`State.seg`; `MODE64` and `OSENABLED` are computed from the control registers (10_state.md R31). -/

namespace Sys2Proof

/-- The CPUID feature flags in scope (00_scope.md R2, R5 `FEATURES`). -/
structure Features where
  ssse3    : Bool
  avx      : Bool
  avx2     : Bool
  avx512bw : Bool
  avx512vl : Bool
  deriving DecidableEq, Repr

/-- `FEATURES` read from the two CPUID words that report it: leaf 01H ECX, and leaf 07H subleaf 0 EBX
(60_exceptions.md R153). -/
def Features.ofCpuid (leaf1Ecx leaf7Ebx : BitVec 32) : Features where
  ssse3    := leaf1Ecx.getLsbD 9
  avx      := leaf1Ecx.getLsbD 28
  avx2     := leaf7Ebx.getLsbD 5
  avx512bw := leaf7Ebx.getLsbD 30
  avx512vl := leaf7Ebx.getLsbD 31

/-- `MAXVL`, the width of a full vector register (00_scope.md R5, D2). -/
inductive MaxVl
  | w128
  | w256
  | w512
  deriving DecidableEq, Repr

/-- `MAXVL` in bits. -/
def MaxVl.bits : MaxVl → Nat
  | .w128 => 128
  | .w256 => 256
  | .w512 => 512

/-- The value R5 recommends for `MAXVL`: 512 with AVX512BW, else 256 with AVX, else 128. -/
def Features.recommendedMaxVl (f : Features) : MaxVl :=
  if f.avx512bw then .w512 else if f.avx then .w256 else .w128

/-- The parameters of 00_scope.md R5 that are not held in registers. -/
structure Config where
  /-- `FEATURES` (D4). -/
  features : Features
  /-- `MAXVL` (D2). -/
  maxvl : MaxVl
  /-- `ALIGN_CHECK_NONLEGACY` (20_memory.md R54, D6). -/
  alignCheckNonLegacy : Bool
  /-- `FAULT_SUPPRESSION` (20_memory.md R59, D15). -/
  faultSuppression : Bool
  /-- How many low bits of an address are implemented: the "top implemented bit" of 20_memory.md R57
  is `linearBits - 1` (log 10). -/
  linearBits : Nat
  /-- Whether the modes that decision D5 refuses are executed as 60_exceptions.md R161 says (log 4). -/
  otherModes : Bool
  deriving DecidableEq, Repr

/-- Every feature flag of the spec reported. -/
def Features.all : Features := ⟨true, true, true, true, true⟩

/-- The configuration of a reset machine: R5's recommended values over all five features; 48 address
bits and `otherModes` are DESIGN CHOICES (log 3, log 4, log 10). -/
def Config.recommended : Config where
  features := Features.all
  maxvl := Features.all.recommendedMaxVl
  alignCheckNonLegacy := false
  faultSuppression := true
  linearBits := 48
  otherModes := true

/-- A free value: which of several override prefixes that name different segments names the segment of a
memory operand (30_encoding.md R84 speaks of one override; log 16, DESIGN CHOICE). It may depend on the mode
and on the prefixes in their order; nothing constrains it. -/
opaque Config.freeOverride : Mode → List Prefix → Nat

end Sys2Proof
end

