-- ==== Sys2Proof/Decode.lean ====
section
/-! DEFINITION. The decoder, total on any bytes (30_encoding.md R94), and after it the encoder, both
written from the encoding tables of 30_encoding.md; and the length rule R98 they share. -/

namespace Sys2Proof

/-! ## Prefixes and lengths -/

/-- Whether prefix 67 is among the prefixes (30_encoding.md R71). -/
def hasAddrSize (pre : List Prefix) : Bool := pre.contains .addrSize

/-- Whether prefix 66 is among the prefixes (30_encoding.md R73). -/
def hasOpSize (pre : List Prefix) : Bool := pre.contains .opSize

/-- The segment overrides among the prefixes, in order. -/
def segOverrides (pre : List Prefix) : List Seg :=
  pre.filterMap fun
    | .seg s => some s
    | _ => none

/-- The prefixes R90 makes #UD on a legacy form: LOCK, F2 and F3. -/
def Prefix.isReserved : Prefix → Bool
  | .lock | .repne | .rep => true
  | .opSize | .addrSize | .seg _ | .rex _ => false

/-- The prefixes that may precede a VEX or EVEX prefix: segment overrides and 67 (R71, R91, R92). -/
def Prefix.beforeVex : Prefix → Bool
  | .addrSize | .seg _ => true
  | .opSize | .lock | .repne | .rep | .rex _ => false

/-- REX prefixes exist only in 64-bit mode (30_encoding.md R74, R99). -/
def Prefix.existsIn (m : Mode) : Prefix → Bool
  | .rex _ => m == .bits64
  | .opSize | .addrSize | .lock | .repne | .rep | .seg _ => true

/-- Whether a memory operand uses 16-bit addressing: the default of 16-bit code, chosen in 32-bit mode
by prefix 67, never in 64-bit mode (30_encoding.md R84, R99; log 23 for 67 in 16-bit code). -/
def addr16 (m : Mode) (pre : List Prefix) : Bool :=
  match m with
  | .bits64 => false
  | .prot32 => hasAddrSize pre
  | .real | .v86 | .prot16 => !hasAddrSize pre

/-- The bits R75 lets vary only in 64-bit mode: outside it the registers are 0 to 7. -/
def Vex.extended (v : Vex) : Bool := v.r || v.x || v.b || v.vvvv.getLsbD 3

/-- The bits R77 lets vary only in 64-bit mode: outside it the registers are 0 to 7. -/
def Evex.extended (e : Evex) : Bool :=
  e.r || e.x || e.b || e.rr || e.vvvv.getLsbD 3 || e.vv

/-- How many bytes the displacement takes. -/
def Disp.size : Disp → Nat
  | .none => 0
  | .d8 _ => 1
  | .d32 _ => 4

def Disp16.size : Disp16 → Nat
  | .none => 0
  | .d8 _ => 1
  | .d16 _ => 2

/-- How many bytes follow ModRM: the SIB byte and the displacement (30_encoding.md R98). -/
def RM.size : RM → Nat
  | .reg _ => 0
  | .mem (.base _ d) => d.size
  | .mem (.disp32 _) => 4
  | .mem (.sib _ _ _ d) => 1 + d.size
  | .mem (.sibDisp32 ..) => 5
  | .mem (.base16 _ d) => d.size
  | .mem (.disp16 _) => 2

/-- The length of an encoding with `fixed` opcode bytes (VEX or EVEX prefix included): prefixes, opcode
bytes, ModRM, SIB and displacement (30_encoding.md R98). -/
def encodedLen (pre : List Prefix) (fixed : Nat) (rm : RM) : Nat :=
  pre.length + fixed + 1 + rm.size

/-- `len` of 30_encoding.md R98: 3 opcode bytes in the legacy shape, 4 in the VEX shape, 5 in the EVEX
shape. -/
def Instr.len : Instr → Nat
  | .pmulhrswMm pre _ rm => encodedLen pre 3 rm
  | .pmulhrswXmm pre _ rm => encodedLen pre 3 rm
  | .vpmulhrswVex128 pre _ _ rm => encodedLen pre 4 rm
  | .vpmulhrswVex256 pre _ _ rm => encodedLen pre 4 rm
  | .vpmulhrswEvex128 pre _ _ rm => encodedLen pre 5 rm
  | .vpmulhrswEvex256 pre _ _ rm => encodedLen pre 5 rm
  | .vpmulhrswEvex512 pre _ _ rm => encodedLen pre 5 rm

/-- The longest instruction (30_encoding.md R72). -/
def maxLen : Nat := 15

/-! ## The bytes of the prefixes -/

/-- The segment-override bytes of R71. -/
def Seg.prefixByte : Seg → Byte
  | .es => 0x26
  | .cs => 0x2E
  | .ss => 0x36
  | .ds => 0x3E
  | .fs => 0x64
  | .gs => 0x65

/-- `0100WRXB` (30_encoding.md R74). -/
def Rex.toByte (r : Rex) : Byte :=
  0b0100#4 ++ BitVec.ofBool r.w ++ BitVec.ofBool r.r ++ BitVec.ofBool r.x ++ BitVec.ofBool r.b

/-- The prefix bytes of R71 and R74. -/
def Prefix.toByte : Prefix → Byte
  | .opSize => 0x66
  | .addrSize => 0x67
  | .lock => 0xF0
  | .repne => 0xF2
  | .rep => 0xF3
  | .seg s => s.prefixByte
  | .rex r => r.toByte

def Rex.ofByte (b : Byte) : Rex := ⟨b.getLsbD 3, b.getLsbD 2, b.getLsbD 1, b.getLsbD 0⟩

/-- The prefix a byte is in a mode, if it is one. -/
def Prefix.ofByte (m : Mode) (b : Byte) : Option Prefix :=
  if b = 0x66 then some .opSize
  else if b = 0x67 then some .addrSize
  else if b = 0xF0 then some .lock
  else if b = 0xF2 then some .repne
  else if b = 0xF3 then some .rep
  else if b = 0x26 then some (.seg .es)
  else if b = 0x2E then some (.seg .cs)
  else if b = 0x36 then some (.seg .ss)
  else if b = 0x3E then some (.seg .ds)
  else if b = 0x64 then some (.seg .fs)
  else if b = 0x65 then some (.seg .gs)
  else if m = .bits64 ∧ b.extractLsb' 4 4 = 0b0100#4 then some (.rex (Rex.ofByte b))
  else none

/-- The prefix bytes at the front, and what follows them (30_encoding.md R98). -/
def scanPrefixes (m : Mode) : List Byte → List Prefix × List Byte
  | [] => ([], [])
  | b :: t =>
    match Prefix.ofByte m b with
    | some p => (p :: (scanPrefixes m t).1, (scanPrefixes m t).2)
    | none => ([], b :: t)

/-- The REX prefix of a legacy form that acts: the one that stands immediately before the opcode byte
0F, which is the last prefix; a REX byte anywhere else is ignored (30_encoding.md R74). -/
def effectiveRex (pre : List Prefix) : Rex :=
  match pre.getLast? with
  | some (.rex r) => r
  | _ => ⟨false, false, false, false⟩

/-! ## ModRM, SIB, displacement -/

/-- A little-endian 32-bit displacement (30_encoding.md R82). -/
def take32 : List Byte → Option (BitVec 32 × List Byte)
  | b0 :: b1 :: b2 :: b3 :: t => some (b3 ++ b2 ++ b1 ++ b0, t)
  | _ => none

def take16 : List Byte → Option (BitVec 16 × List Byte)
  | b0 :: b1 :: t => some (b1 ++ b0, t)
  | _ => none

/-- The displacement of mod = 00, 01, 10 (30_encoding.md R80, R98). -/
def parseDisp (mod : BitVec 2) (bs : List Byte) : Option (Disp × List Byte) :=
  if mod = 0 then some (.none, bs)
  else if mod = 1 then
    match bs with
    | b :: t => some (.d8 b, t)
    | [] => none
  else (take32 bs).map fun p => (.d32 p.1, p.2)

def parseDisp16 (mod : BitVec 2) (bs : List Byte) : Option (Disp16 × List Byte) :=
  if mod = 0 then some (.none, bs)
  else if mod = 1 then
    match bs with
    | b :: t => some (.d8 b, t)
    | [] => none
  else (take16 bs).map fun p => (.d16 p.1, p.2)

/-- The SIB byte `scale[7:6] index[5:3] base[2:0]` and what follows it (30_encoding.md R81). -/
def parseSib (mod : BitVec 2) : List Byte → Option (Mem × List Byte)
  | [] => none
  | s :: t =>
    if mod = 0 ∧ s.extractLsb' 0 3 = 5 then
      (take32 t).map fun p => (.sibDisp32 (s.extractLsb' 6 2) (s.extractLsb' 3 3) p.1, p.2)
    else
      (parseDisp mod t).map fun p =>
        (.sib (s.extractLsb' 6 2) (s.extractLsb' 3 3) (s.extractLsb' 0 3) p.1, p.2)

/-- The memory operand of mod and rm (30_encoding.md R80 for 32- and 64-bit addressing, R84 for 16-bit). -/
def parseMem (a16 : Bool) (mod : BitVec 2) (rm : BitVec 3) (bs : List Byte) : Option (Mem × List Byte) :=
  if a16 then
    if mod = 0 ∧ rm = 6 then (take16 bs).map fun p => (.disp16 p.1, p.2)
    else (parseDisp16 mod bs).map fun p => (.base16 rm p.1, p.2)
  else if rm = 4 then parseSib mod bs
  else if mod = 0 ∧ rm = 5 then (take32 bs).map fun p => (.disp32 p.1, p.2)
  else (parseDisp mod bs).map fun p => (.base rm p.1, p.2)

/-- The r/m operand (30_encoding.md R79). -/
def parseRM (a16 : Bool) (mod : BitVec 2) (rm : BitVec 3) (bs : List Byte) : Option (RM × List Byte) :=
  if mod = 3 then some (.reg rm, bs)
  else (parseMem a16 mod rm bs).map fun p => (.mem p.1, p.2)

/-! ## The decoder -/

/-- Why bytes are none of the seven forms. -/
inductive DecodeError
  /-- The list ends inside the instruction. -/
  | truncated
  /-- Longer than 15 bytes: #GP(0) (30_encoding.md R72). -/
  | tooLong
  /-- A reserved encoding: #UD (30_encoding.md R90 to R92). -/
  | invalid
  /-- Not this instruction: a refusal (30_encoding.md R94). -/
  | notThis
  /-- Register-extension bits set outside 64-bit mode: a refusal (30_encoding.md R75, R77, D5). -/
  | extension
  deriving DecidableEq, Repr

/-- What a decoder step answers: an instruction and the bytes after it, or why there is none. -/
abbrev Decoded := Except DecodeError (Instr × List Byte)

/-- Read one byte. -/
def nextByte (bs : List Byte) (f : Byte → List Byte → Decoded) : Decoded :=
  match bs with
  | [] => .error .truncated
  | b :: t => f b t

/-- Read ModRM `mod[7:6] reg[5:3] rm[2:0]` and what belongs to it, check the length before anything
else about the encoding is judged (60_exceptions.md R159 step 2), then judge. -/
def withModRM (m : Mode) (pre : List Prefix) (fixed : Nat) (bs : List Byte)
    (judge : BitVec 3 → RM → Except DecodeError Instr) : Decoded :=
  nextByte bs fun b t =>
    match parseRM (addr16 m pre) (b.extractLsb' 6 2) (b.extractLsb' 0 3) t with
    | none => .error .truncated
    | some (rm, rest) =>
      if maxLen < encodedLen pre fixed rm then .error .tooLong
      else (judge (b.extractLsb' 3 3) rm).map fun i => (i, rest)

/-- The legacy shape, after its byte 0F: `38 0B` (30_encoding.md R73, R90). -/
def decodeLegacy (m : Mode) (pre : List Prefix) (bs : List Byte) : Decoded :=
  nextByte bs fun b1 t1 => if b1 ≠ 0x38 then .error .notThis else
  nextByte t1 fun b2 t2 => if b2 ≠ 0x0B then .error .notThis else
  withModRM m pre 3 t2 fun reg rm =>
    if pre.any Prefix.isReserved then .error .invalid
    else if hasOpSize pre then .ok (.pmulhrswXmm pre reg rm)
    else .ok (.pmulhrswMm pre reg rm)

/-- The VEX and EVEX forms exist in neither real-address nor virtual-8086 mode (30_encoding.md R91, R92). -/
def Mode.isRealOrV86 : Mode → Bool
  | .real | .v86 => true
  | .prot16 | .prot32 | .bits64 => false

/-- Extension bits outside 64-bit mode are refused (D5), but where every VEX and EVEX encoding is #UD
they are #UD too (60_exceptions.md R161; log 17). -/
def extensionError (m : Mode) : DecodeError := if m.isRealOrV86 then .invalid else .extension

/-- Outside 64-bit mode C4 and 62 begin a prefix only when bits 7:6 of the next byte are 11; otherwise
they are LES and BOUND (30_encoding.md R75, R77). -/
def isVexIntroduced (m : Mode) (next : Byte) : Bool :=
  m == .bits64 || next.extractLsb' 6 2 == 3

/-- The fields of V1 and V2 that R75 leaves free. -/
def Vex.ofBytes (v1 v2 : Byte) : Vex :=
  ⟨!v1.getLsbD 7, !v1.getLsbD 6, !v1.getLsbD 5, v2.getLsbD 7, ~~~(v2.extractLsb' 3 4)⟩

/-- The VEX shape, after its byte C4 (30_encoding.md R75, R76, R91). Opcode maps 0F and 0F 3A hold other
instructions; a map that is not defined and a pp other than 66 are #UD (log 18). -/
def decodeVex (m : Mode) (pre : List Prefix) (bs : List Byte) : Decoded :=
  nextByte bs fun v1 t1 => if !isVexIntroduced m v1 then .error .notThis else
  nextByte t1 fun v2 t2 => nextByte t2 fun op t3 =>
  if op ≠ 0x0B ∨ v1.extractLsb' 0 5 = 1 ∨ v1.extractLsb' 0 5 = 3 then .error .notThis else
  withModRM m pre 4 t3 fun reg rm =>
    if v1.extractLsb' 0 5 ≠ 2 ∨ v2.extractLsb' 0 2 ≠ 1 then .error .invalid
    else if !pre.all Prefix.beforeVex then .error .invalid
    else if m ≠ .bits64 ∧ (Vex.ofBytes v1 v2).extended then .error (extensionError m)
    else if v2.getLsbD 2 then .ok (.vpmulhrswVex256 pre (Vex.ofBytes v1 v2) reg rm)
    else .ok (.vpmulhrswVex128 pre (Vex.ofBytes v1 v2) reg rm)

/-- The fields of P0, P1 and P2 that R77 leaves free. -/
def Evex.ofBytes (p0 p1 p2 : Byte) : Evex where
  r := !p0.getLsbD 7
  x := !p0.getLsbD 6
  b := !p0.getLsbD 5
  rr := !p0.getLsbD 4
  w := p1.getLsbD 7
  vvvv := ~~~(p1.extractLsb' 3 4)
  z := p2.getLsbD 7
  vv := !p2.getLsbD 3
  aaa := p2.extractLsb' 0 3

/-- The reserved patterns of R92 in the three payload bytes: P0[3:2] not 00, P1[2] not 1, b not 0,
L'L = 11, z without a writemask. -/
def evexReserved (p0 p1 p2 : Byte) : Bool :=
  p0.extractLsb' 2 2 != 0 || !p1.getLsbD 2 || p2.getLsbD 4 || p2.extractLsb' 5 2 == 3
    || (p2.getLsbD 7 && p2.extractLsb' 0 3 == 0)

/-- The EVEX form that L'L selects (30_encoding.md R77). -/
def evexInstr (ll : BitVec 2) (pre : List Prefix) (e : Evex) (reg : BitVec 3) (rm : RM) : Instr :=
  if ll = 0 then .vpmulhrswEvex128 pre e reg rm
  else if ll = 1 then .vpmulhrswEvex256 pre e reg rm
  else .vpmulhrswEvex512 pre e reg rm

/-- The EVEX shape, after its byte 62 (30_encoding.md R77, R78, R92). Another opcode, map or pp is not
this instruction. -/
def decodeEvex (m : Mode) (pre : List Prefix) (bs : List Byte) : Decoded :=
  nextByte bs fun p0 t0 => if !isVexIntroduced m p0 then .error .notThis else
  nextByte t0 fun p1 t1 => nextByte t1 fun p2 t2 => nextByte t2 fun op t3 =>
  if op ≠ 0x0B ∨ p0.extractLsb' 0 2 ≠ 2 ∨ p1.extractLsb' 0 2 ≠ 1 then .error .notThis else
  withModRM m pre 5 t3 fun reg rm =>
    if evexReserved p0 p1 p2 then .error .invalid
    else if !pre.all Prefix.beforeVex then .error .invalid
    else if m ≠ .bits64 ∧ (Evex.ofBytes p0 p1 p2).extended then .error (extensionError m)
    else .ok (evexInstr (p2.extractLsb' 5 2) pre (Evex.ofBytes p0 p1 p2) reg rm)

/-- The shape that the byte after the prefixes begins (30_encoding.md R71). -/
def decodeBody (m : Mode) (pre : List Prefix) (body : List Byte) : Decoded :=
  nextByte body fun b t =>
    if b = 0x0F then decodeLegacy m pre t
    else if b = 0xC4 then decodeVex m pre t
    else if b = 0x62 then decodeEvex m pre t
    else .error .notThis

/-- The decoder: the instruction at the front of the bytes, and the bytes after it (30_encoding.md R94). -/
def decode (m : Mode) (bs : List Byte) : Decoded :=
  decodeBody m (scanPrefixes m bs).1 (scanPrefixes m bs).2

/-! ## The encoder -/

def bytes16 (v : BitVec 16) : List Byte := [v.extractLsb' 0 8, v.extractLsb' 8 8]

/-- A displacement, low byte first (30_encoding.md R82). -/
def bytes32 (v : BitVec 32) : List Byte :=
  [v.extractLsb' 0 8, v.extractLsb' 8 8, v.extractLsb' 16 8, v.extractLsb' 24 8]

def Disp.mod : Disp → BitVec 2
  | .none => 0
  | .d8 _ => 1
  | .d32 _ => 2

def Disp.bytes : Disp → List Byte
  | .none => []
  | .d8 v => [v]
  | .d32 v => bytes32 v

def Disp16.mod : Disp16 → BitVec 2
  | .none => 0
  | .d8 _ => 1
  | .d16 _ => 2

def Disp16.bytes : Disp16 → List Byte
  | .none => []
  | .d8 v => [v]
  | .d16 v => bytes16 v

def RM.mod : RM → BitVec 2
  | .reg _ => 3
  | .mem (.base _ d) => d.mod
  | .mem (.disp32 _) => 0
  | .mem (.sib _ _ _ d) => d.mod
  | .mem (.sibDisp32 ..) => 0
  | .mem (.base16 _ d) => d.mod
  | .mem (.disp16 _) => 0

def RM.low : RM → BitVec 3
  | .reg r => r
  | .mem (.base r _) => r
  | .mem (.disp32 _) => 5
  | .mem (.sib ..) => 4
  | .mem (.sibDisp32 ..) => 4
  | .mem (.base16 r _) => r
  | .mem (.disp16 _) => 6

/-- The SIB byte and the displacement. -/
def RM.tail : RM → List Byte
  | .reg _ => []
  | .mem (.base _ d) => d.bytes
  | .mem (.disp32 v) => bytes32 v
  | .mem (.sib s x b d) => (s ++ x ++ b : BitVec 8) :: d.bytes
  | .mem (.sibDisp32 s x v) => (s ++ x ++ 5#3 : BitVec 8) :: bytes32 v
  | .mem (.base16 _ d) => d.bytes
  | .mem (.disp16 v) => bytes16 v

/-- ModRM and what belongs to it. -/
def encodeModRM (reg : BitVec 3) (rm : RM) : List Byte :=
  (rm.mod ++ reg ++ rm.low : BitVec 8) :: rm.tail

/-- V1 of R75: the complements of R, X, B, and the map 0F 38. -/
def Vex.byte1 (v : Vex) : Byte :=
  BitVec.ofBool (!v.r) ++ BitVec.ofBool (!v.x) ++ BitVec.ofBool (!v.b) ++ 0b00010#5

/-- V2 of R75: W, the complement of vvvv, L and pp = 66. -/
def Vex.byte2 (v : Vex) (l : BitVec 1) : Byte :=
  BitVec.ofBool v.w ++ ~~~v.vvvv ++ l ++ 0b01#2

/-- P0 of R77: the complements of R, X, B, R', two zeros, and the map 0F 38. -/
def Evex.byte0 (e : Evex) : Byte :=
  BitVec.ofBool (!e.r) ++ BitVec.ofBool (!e.x) ++ BitVec.ofBool (!e.b) ++ BitVec.ofBool (!e.rr)
    ++ 0b0010#4

/-- P1 of R77: W, the complement of vvvv, the fixed 1 and pp = 66. -/
def Evex.byte1 (e : Evex) : Byte :=
  BitVec.ofBool e.w ++ ~~~e.vvvv ++ 0b101#3

/-- P2 of R77: z, L'L, b = 0, the complement of V', aaa. -/
def Evex.byte2 (e : Evex) (ll : BitVec 2) : Byte :=
  BitVec.ofBool e.z ++ ll ++ 0#1 ++ BitVec.ofBool (!e.vv) ++ e.aaa

def encodeLegacy (pre : List Prefix) (reg : BitVec 3) (rm : RM) : List Byte :=
  pre.map Prefix.toByte ++ [0x0F, 0x38, 0x0B] ++ encodeModRM reg rm

def encodeVex (l : BitVec 1) (pre : List Prefix) (v : Vex) (reg : BitVec 3) (rm : RM) : List Byte :=
  pre.map Prefix.toByte ++ [0xC4, v.byte1, v.byte2 l, 0x0B] ++ encodeModRM reg rm

def encodeEvex (ll : BitVec 2) (pre : List Prefix) (e : Evex) (reg : BitVec 3) (rm : RM) : List Byte :=
  pre.map Prefix.toByte ++ [0x62, e.byte0, e.byte1, e.byte2 ll, 0x0B] ++ encodeModRM reg rm

/-- The bytes of an instruction, in address order (30_encoding.md R70, R71, R76, R78). -/
def encode : Instr → List Byte
  | .pmulhrswMm pre reg rm => encodeLegacy pre reg rm
  | .pmulhrswXmm pre reg rm => encodeLegacy pre reg rm
  | .vpmulhrswVex128 pre v reg rm => encodeVex 0 pre v reg rm
  | .vpmulhrswVex256 pre v reg rm => encodeVex 1 pre v reg rm
  | .vpmulhrswEvex128 pre e reg rm => encodeEvex 0 pre e reg rm
  | .vpmulhrswEvex256 pre e reg rm => encodeEvex 1 pre e reg rm
  | .vpmulhrswEvex512 pre e reg rm => encodeEvex 2 pre e reg rm

/-! ## Words of the opcode table -/

/-- The bytes of a word of `spec/opcode_table.json`, whose `match` has the first byte leftmost, so that
the first byte is the most significant of the `nbits`; zero bytes follow up to the longest instruction
(log 6). -/
def tableBytes (nbits w : Nat) : List Byte :=
  let n := min (nbits / 8) maxLen
  (List.range n).map (fun k => BitVec.ofNat 8 (w >>> (8 * (nbits / 8 - 1 - k))))
    ++ List.replicate (maxLen - n) 0

/-- The instruction the decoder reads, in 64-bit mode, from a word of the table (log 6). -/
def decodeTableWord (nbits w : Nat) : Option Instr :=
  match decode .bits64 (tableBytes nbits w) with
  | .ok (i, _) => some i
  | .error _ => none

end Sys2Proof
end

