-- ==== Sys2Proof/Machine/State.lean ====
section
/-! DEFINITION. The state of the machine as plain data, the reasons a step can stop, and the state after
reset (10_state.md). INVENTORY.md lists every field with its rule and its reset value. -/

namespace Sys2Proof.Machine

/-- The exceptions of 60_exceptions.md R157 that this instruction can raise. A fault is an outcome: no
state changes and the run stops (R158). Every one of them is safe: the machine stops where a processor
goes on at a handler. -/
inductive Fault
  /-- #UD. Raised by the decoder (30_encoding.md R90 to R92) and by the gate of every form (R93,
  60_exceptions.md R154 to R156). Safe. -/
  | invalidOpcode
  /-- #NM. Raised by the gate of every form when CR0.TS = 1. Safe. -/
  | deviceNotAvailable
  /-- #SS(0). Raised for a byte addressed through SS: memory operands (20_memory.md R57), and a fetch
  that Translate answers so. Safe. -/
  | stackSegment
  /-- #GP(0). Raised for an instruction longer than 15 bytes (30_encoding.md R72), a misaligned operand
  (20_memory.md R53, R54) and a byte addressed through another segment (R57). Safe. -/
  | generalProtection
  /-- #PF, with its error code and the linear address that CR2 would hold (R157): the lowest faulting
  byte that is not fault-suppressed. Raised for operand bytes and for fetched bytes. Safe. -/
  | pageFault (code : BitVec 32) (address : Word)
  /-- #MF. Raised by the gate of F-MMX when an x87 exception is pending (R154). Safe. -/
  | x87FloatingPoint
  /-- #AC(0). Raised for a memory operand of F-MMX with alignment checking on (R154). Safe. -/
  | alignmentCheck
  deriving DecidableEq, Repr

/-- Why the model gives a step no meaning. Every one of them is safe: nothing can be proved about a
refused step but that it is refused. -/
inductive Refusal
  /-- An instruction whose meaning is not written yet. Raised by no arm of `exec`. Safe. -/
  | notModelled (mnemonic : String)
  /-- Bytes that are none of the seven forms (30_encoding.md R94, U6). Raised by `step`. Safe. -/
  | notThisInstruction
  /-- A mode D5 refuses, where `Config.otherModes` is false (60_exceptions.md R161, U8). Raised by `step`
  and by the gate of every form. Safe. -/
  | modeOutsideModel
  /-- Register-extension bits set outside 64-bit mode (30_encoding.md R75, R77, U5). Raised by `step`.
  Safe. -/
  | extensionOutside64
  /-- The instruction's bytes or pc + len, or a checked byte of its operand, pass the top of the address
  space (10_state.md R28, U15; log 11, log 12). Raised by `step`, by the gate and by the memory operand.
  Safe. -/
  | addressSpaceTop
  /-- A segment base that is not a multiple of 16 where alignment is tested (20_memory.md R53, D6, U10).
  Raised by the memory operand. Safe. -/
  | unalignedSegmentBase
  /-- A byte of a region where reads have side effects (20_memory.md R56, U13). Raised by the memory
  operand and by `step` for a fetched byte. Safe. -/
  | sideEffectingRead
  /-- An unaligned operand of a VEX or EVEX form with alignment checking on, where whether #AC is raised
  is implementation-specific (20_memory.md R54, U20). Raised by the memory operand. Safe. -/
  | alignmentCheckOpen
  deriving DecidableEq, Repr

/-- How a run can stop. -/
inductive Stop
  | fault (f : Fault)
  | refused (r : Refusal)
  deriving DecidableEq, Repr

/-- What the memory system is asked for (20_memory.md R57, 60_exceptions.md R159 step 1). -/
inductive AccessKind
  | read
  | fetch
  deriving DecidableEq, Repr

/-- The bits of a page fault's error code that translation decides (60_exceptions.md R157): P, RSVD, PK,
and, for a fetch only, I/D (log 20). -/
structure PageInfo where
  p    : Bool
  rsvd : Bool
  pk   : Bool
  id   : Bool
  deriving DecidableEq, Repr

/-- What is answered for one byte (20_memory.md R56, R57). `absent` is an address past the top of the
address space (log 11). -/
inductive Answer
  | readable
  | absent
  | device
  | gp
  | ss
  | pf (info : PageInfo)
  deriving DecidableEq, Repr

/-- A range of addresses for which the parameter `Translate` gives one answer to one kind of access
(20_memory.md R57; log 9). -/
structure Region where
  base : Nat
  size : Nat
  kind : AccessKind
  answer : Answer
  deriving DecidableEq, Repr

/-- A segment register (10_state.md R26, R35). -/
structure SegReg where
  selector : BitVec 16
  base : Word
  deriving DecidableEq, Repr

/-- The mode of the processor while 64-bit mode is not selected (60_exceptions.md R161). -/
inductive BaseMode
  | real
  | v86
  | prot16
  | prot32
  deriving DecidableEq, Repr

/-- The state of the machine (00_scope.md R11, 10_state.md). -/
structure State where
  /-- The parameters of 00_scope.md R5 (log 3). -/
  config : Config
  /-- Instruction pointer: the address of the instruction's first byte (10_state.md R27). -/
  pc : Word
  /-- General-purpose registers 0 to 15 (10_state.md R26). -/
  gpr : Vector Word 16
  /-- The x87 data registers, whose low 64 bits are MM0 to MM7 (10_state.md R21, R22; log 13). -/
  x87 : Vector (BitVec 80) 8
  /-- x87 tag word (10_state.md R22). -/
  fpuTag : BitVec 16
  /-- Top-of-stack field of the x87 status word (10_state.md R22). -/
  fpuTop : BitVec 3
  /-- An unmasked x87 floating-point exception is pending (60_exceptions.md R154). -/
  fpuPending : Bool
  /-- Vector registers V0 to V31 (10_state.md R23, R24; log 24). -/
  vec : Vector VReg 32
  /-- Opmask registers K0 to K7 (10_state.md R25). -/
  k : Vector (BitVec 64) 8
  /-- Segment registers 0 to 5: ES, CS, SS, DS, FS, GS (10_state.md R26). -/
  seg : Vector SegReg 6
  /-- The L bit of CS (10_state.md R31, 70_reset_and_hazards.md R181). -/
  csL : Bool
  /-- The mode while 64-bit mode is not selected (60_exceptions.md R161). -/
  baseMode : BaseMode
  /-- Current privilege level (10_state.md R31, R35). -/
  cpl : BitVec 2
  /-- IA32_EFER (10_state.md R31). -/
  efer : Word
  /-- Control registers 0, 2, 4 and extended control register 0 (10_state.md R31, 60_exceptions.md
  R157). -/
  cr0 : Word
  cr2 : Word
  cr4 : Word
  xcr0 : Word
  /-- EFLAGS / RFLAGS (10_state.md R29). -/
  rflags : Word
  /-- SIMD control and status register (10_state.md R30). -/
  mxcsr : BitVec 32
  /-- The parameter `Translate`: the first region that holds an address answers, and an address in no
  region is readable (20_memory.md R57; log 9). -/
  regions : List Region
  /-- Memory in canonical form: addresses rising, no byte listed that an unlisted address reads as
  (`Memory.wf`; 20_memory.md R51; log 7). -/
  mem : List Host.Cell
  deriving DecidableEq, Repr

/-- The state after power-up or RESET: the table of 10_state.md R35, and for what it does not give the
values of log 2, log 3 and log 13. -/
def State.reset : State where
  config := Config.recommended
  pc := 0xFFF0
  gpr := Vector.replicate 16 0
  x87 := Vector.replicate 8 0
  fpuTag := 0x5555
  fpuTop := 0
  fpuPending := false
  vec := Vector.replicate 32 0
  k := Vector.replicate 8 0
  seg := #v[⟨0, 0⟩, ⟨0xF000, 0xFFFF0000⟩, ⟨0, 0⟩, ⟨0, 0⟩, ⟨0, 0⟩, ⟨0, 0⟩]
  csL := false
  baseMode := .real
  cpl := 0
  efer := 0
  cr0 := 0x60000010
  cr2 := 0
  cr4 := 0
  xcr0 := 1
  rflags := 0x2
  mxcsr := 0x1F80
  regions := []
  mem := []

end Sys2Proof.Machine
end

