-- ==== Sys2Proof/Machine/Flags.lean ====
section
/-! DEFINITION. The status and control bits the instruction consults (10_state.md R31). No form reads or
writes any arithmetic flag or any bit of MXCSR (10_state.md R29, R30), so there is no flag computation. -/

namespace Sys2Proof.Machine

/-- CR0.EM, bit 2. -/
def State.cr0EM (s : State) : Bool := s.cr0.getLsbD 2

/-- CR0.TS, bit 3. -/
def State.cr0TS (s : State) : Bool := s.cr0.getLsbD 3

/-- CR0.AM, bit 18. -/
def State.cr0AM (s : State) : Bool := s.cr0.getLsbD 18

/-- CR4.OSFXSR, bit 9. -/
def State.osfxsr (s : State) : Bool := s.cr4.getLsbD 9

/-- CR4.OSXSAVE, bit 18. -/
def State.osxsave (s : State) : Bool := s.cr4.getLsbD 18

/-- XCR0 bits 1 and 2: SSE state and AVX state. -/
def State.xcr0Avx (s : State) : Bool := s.xcr0.extractLsb' 1 2 == 0b11#2

/-- XCR0 bits 5, 6 and 7: opmask, ZMM_Hi256 and Hi16_ZMM state. -/
def State.xcr0Avx512 (s : State) : Bool := s.xcr0.extractLsb' 5 3 == 0b111#3

/-- EFLAGS.AC, bit 18. -/
def State.flagAC (s : State) : Bool := s.rflags.getLsbD 18

/-- IA32_EFER.LMA, bit 10. -/
def State.lma (s : State) : Bool := s.efer.getLsbD 10

/-- Alignment checking is on: CR0.AM = 1, EFLAGS.AC = 1 and privilege level 3 (20_memory.md R54). -/
def State.alignmentChecking (s : State) : Bool := s.cr0AM && s.flagAC && s.cpl == 3

def BaseMode.toMode : BaseMode → Mode
  | .real => .real
  | .v86 => .v86
  | .prot16 => .prot16
  | .prot32 => .prot32

/-- The mode: 64-bit mode when IA32_EFER.LMA = 1 and CS.L = 1 (10_state.md R31, 70_reset_and_hazards.md
R181). -/
def State.mode (s : State) : Mode := if s.lma && s.csL then .bits64 else s.baseMode.toMode

/-- The modes 00_scope.md R5's `MODE64` chooses between. -/
def modeInScope : Mode → Bool
  | .bits64 | .prot32 => true
  | .real | .v86 | .prot16 => false

/-- The mode is one that D5 refuses, and the configuration does not ask for it (log 4). -/
def State.modeRefused (s : State) : Bool := !modeInScope s.mode && !s.config.otherModes

end Sys2Proof.Machine
end

