-- ==== Sys2Proof/Machine/Ops.lean ====
section
/-! DEFINITION. The named operations the meanings share: memory, registers, translation, raising an
exception, and the gate every form passes (60_exceptions.md R159). -/

namespace Sys2Proof.Machine

/-! ## Memory (20_memory.md R51) -/

/-- What a byte that is not listed reads as (log 7). -/
def Memory.unlisted : Byte := 0

/-- The byte at an address. -/
def Memory.read : List Host.Cell → Nat → Byte
  | [], _ => Memory.unlisted
  | c :: t, a => if c.1 = a then c.2 else Memory.read t a

/-- Put a cell at the front, unless it holds what an unlisted address reads as. -/
def Memory.cons (a : Nat) (v : Byte) (t : List Host.Cell) : List Host.Cell :=
  if v = Memory.unlisted then t else (a, v) :: t

/-- Store one byte (00_scope.md R8 `MemWrite`; no form stores, but a program is loaded so). -/
def Memory.write : List Host.Cell → Nat → Byte → List Host.Cell
  | [], a, v => Memory.cons a v []
  | c :: t, a, v =>
    if a < c.1 then Memory.cons a v (c :: t)
    else if a = c.1 then Memory.cons a v t
    else c :: Memory.write t a v

/-- Store bytes at rising addresses. -/
def Memory.writeBytes (m : List Host.Cell) (a : Nat) : List Byte → List Host.Cell
  | [] => m
  | b :: t => Memory.writeBytes (Memory.write m a b) (a + 1) t

/-- The canonical form: addresses strictly rising, and no cell that says what an unlisted address reads
as. -/
abbrev Memory.wf (m : List Host.Cell) : Prop :=
  m.Pairwise (fun c d => c.1 < d.1) ∧ ∀ c ∈ m, c.2 ≠ Memory.unlisted

/-- `n` bytes at `a`, the byte at `a` in bits 7:0 (20_memory.md R51), of which only those that `sel`
picks are read; the others are 0 and are never used (43_vpmulhrsw_evex.md R140 `MemReadMasked`). -/
def Memory.readSelected (m : List Host.Cell) (sel : Nat → Bool) (a : Nat) : Nat → VReg
  | 0 => 0
  | n + 1 =>
    Memory.readSelected m sel a n |||
      (if sel n then ((Memory.read m (a + n)).setWidth 512 <<< (8 * n)) else 0)

/-! ## Registers (10_state.md R21 to R26) -/

def Seg.number : Seg → Fin 6
  | .es => 0
  | .cs => 1
  | .ss => 2
  | .ds => 3
  | .fs => 4
  | .gs => 5

/-- `x[n]` (00_scope.md R8). -/
def State.x (s : State) (n : BitVec 4) : Word := s.gpr[n.toNat]'(n.isLt)

/-- `MM[n]`: the low 64 bits of the x87 data register (10_state.md R22). -/
def State.mm (s : State) (n : BitVec 3) : BitVec 64 := (s.x87[n.toNat]'(n.isLt)).setWidth 64

/-- `V[n]`. -/
def State.v (s : State) (n : BitVec 5) : VReg := s.vec[n.toNat]'(n.isLt)

/-- `K[n]`. -/
def State.opmask (s : State) (n : BitVec 3) : BitVec 64 := s.k[n.toNat]'(n.isLt)

/-- The x87 data register behind an MMX register that holds `v`: bits 79:64 are ones (10_state.md R22). -/
def mmxImage (v : BitVec 64) : BitVec 80 := 0xFFFF#16 ++ v

/-- `MM[n] <- v`, with the three effects on x87 state: bits 79:64 of the backing register become ones,
the tag word becomes all-valid, and the top-of-stack field becomes 0 (10_state.md R22). -/
def State.writeMm (s : State) (n : BitVec 3) (v : BitVec 64) : State :=
  { s with x87 := s.x87.set n.toNat (mmxImage v) n.isLt, fpuTag := 0, fpuTop := 0 }

/-- `V[n] <- v`. -/
def State.writeV (s : State) (n : BitVec 5) (v : VReg) : State :=
  { s with vec := s.vec.set n.toNat v n.isLt }

/-- `V[n][127:0] <- v`, bits MAXVL-1:128 kept (10_state.md R23, R121). -/
def State.writeXmm (s : State) (n : BitVec 5) (v : BitVec 128) : State :=
  s.writeV n ((s.v n).extractLsb' 128 384 ++ v)

/-- `pc <- pc + len` (10_state.md R28). -/
def State.advance (s : State) (len : Nat) : State := { s with pc := s.pc + BitVec.ofNat 64 len }

/-! ## Address widths (20_memory.md R60) -/

/-- How many bits an address has: 64 in 64-bit mode, 32 outside it. -/
def Mode.addressBits : Mode → Nat
  | .bits64 => 64
  | .real | .v86 | .prot16 | .prot32 => 32

/-- The number of addresses. -/
def State.addressTop (s : State) : Nat := 2 ^ Mode.addressBits s.mode

/-- Truncate to the low `n` bits. -/
def truncate (n : Nat) (a : Word) : Word := (a.setWidth n).setWidth 64

/-- `SegBase(s)`: in 64-bit mode the bases of CS, DS, ES and SS are 0 (30_encoding.md R84, D16). -/
def State.segBase (s : State) (g : Seg) : Word :=
  match s.mode, g with
  | .bits64, .es | .bits64, .cs | .bits64, .ss | .bits64, .ds => 0
  | _, _ => (s.seg[Seg.number g]).base

/-- The address passed to memory: segment base plus effective address, truncated to the mode's address
width (20_memory.md R60). -/
def State.linear (s : State) (g : Seg) (ea : Word) : Word :=
  truncate (Mode.addressBits s.mode) (s.segBase g + ea)

/-! ## Translation (20_memory.md R56, R57) -/

def Region.holds (r : Region) (kind : AccessKind) (a : Nat) : Bool :=
  r.kind == kind && decide (r.base ≤ a) && decide (a < r.base + r.size)

/-- The answer of the first region that holds the address (log 9). -/
def lookupRegion (rs : List Region) (kind : AccessKind) (a : Nat) : Answer :=
  match rs.find? (fun r => r.holds kind a) with
  | some r => r.answer
  | none => .readable

/-- In 64-bit mode an address is canonical when its upper bits are a sign extension of its top
implemented bit (20_memory.md R57; log 10). -/
def canonical (bits : Nat) (a : Nat) : Bool :=
  decide (a < 2 ^ (bits - 1)) || decide (2 ^ 64 - 2 ^ (bits - 1) ≤ a)

/-- `Translate` for one byte at a linear address, reached through a segment (20_memory.md R57): a
non-canonical address is #SS(0) through SS and #GP(0) through another segment. -/
def State.translate (s : State) (kind : AccessKind) (g : Seg) (a : Nat) : Answer :=
  if s.addressTop ≤ a then .absent
  else if s.mode = .bits64 ∧ canonical s.config.linearBits a = false then
    (if g = .ss then .ss else .gp)
  else lookupRegion s.regions kind a

/-- A page fault's error code (60_exceptions.md R157): P, W/R = 0, U/S, RSVD, I/D, PK. -/
def State.pageFaultCode (s : State) (kind : AccessKind) (i : PageInfo) : BitVec 32 :=
  (BitVec.ofBool i.pk ++ BitVec.ofBool (i.id && kind == .fetch) ++ BitVec.ofBool i.rsvd
    ++ BitVec.ofBool (s.cpl == 3) ++ 0#1 ++ BitVec.ofBool i.p : BitVec 6).setWidth 32

/-! ## Raising an exception (60_exceptions.md R158) -/

/-- The outcome of a step. -/
abbrev Outcome := Host.Outcome State Fault Refusal

/-- `raise E(info)`: the step ends with the fault outcome and nothing changes. Delivery to a handler and
return from it are in no rule, and R160 forbids building them from the spec. -/
def raise (f : Fault) : Outcome := .fault f

/-- How a run stops. -/
def Stop.outcome : Stop → Outcome
  | .fault f => raise f
  | .refused r => .refused r

/-- The vector number of R157. -/
def Fault.vector : Fault → Nat
  | .invalidOpcode => 6
  | .deviceNotAvailable => 7
  | .stackSegment => 12
  | .generalProtection => 13
  | .pageFault .. => 14
  | .x87FloatingPoint => 16
  | .alignmentCheck => 17

/-- The error code of R157, where there is one. -/
def Fault.errorCode : Fault → Option (BitVec 32)
  | .invalidOpcode | .deviceNotAvailable | .x87FloatingPoint => none
  | .stackSegment | .generalProtection | .alignmentCheck => some 0
  | .pageFault code _ => some code

/-- A check: stop with `e` where `c` holds. -/
def stopIf (c : Bool) (e : Stop) : Option Stop := if c then some e else none

/-- The first check of an ordered list that stops (60_exceptions.md R159). -/
def firstStop : List (Option Stop) → Option Stop
  | [] => none
  | some e :: _ => some e
  | none :: t => firstStop t

/-! ## The gate of a form (60_exceptions.md R159 steps 2 to 4) -/

/-- `VL` in bits (00_scope.md R2). -/
def Form.vl : Form → Nat
  | .mmx => 64
  | .sse | .vex128 | .evex128 => 128
  | .vex256 | .evex256 => 256
  | .evex512 => 512

/-- `KL = VL / 16` (00_scope.md R6). -/
def Form.kl (f : Form) : Nat := Form.vl f / 16

/-- The bytes a memory operand has (20_memory.md R52). -/
def Form.bytes (f : Form) : Nat := Form.vl f / 8

def Form.isVexOrEvex : Form → Bool
  | .mmx | .sse => false
  | .vex128 | .vex256 | .evex128 | .evex256 | .evex512 => true

def Form.isEvex : Form → Bool
  | .mmx | .sse | .vex128 | .vex256 => false
  | .evex128 | .evex256 | .evex512 => true

/-- The CPUID feature flags of the form are reported (00_scope.md R2). -/
def Form.reported (f : Form) (x : Features) : Bool :=
  match f with
  | .mmx | .sse => x.ssse3
  | .vex128 => x.avx
  | .vex256 => x.avx2
  | .evex128 | .evex256 => x.avx512vl && x.avx512bw
  | .evex512 => x.avx512bw

/-- The conjuncts of `OSENABLED(form)` whose failure is #UD (10_state.md R31). -/
def State.osEnabledUd (s : State) : Form → Bool
  | .mmx => !s.cr0EM
  | .sse => !s.cr0EM && s.osfxsr
  | .vex128 | .vex256 => s.osxsave && s.xcr0Avx
  | .evex128 | .evex256 | .evex512 => s.osxsave && s.xcr0Avx && s.xcr0Avx512

/-- `OSENABLED(form)` (10_state.md R31). -/
def State.osEnabled (s : State) (f : Form) : Bool := s.osEnabledUd f && !s.cr0TS

/-- `pc + len` does not pass the top of the address space (10_state.md R28; log 12). -/
def State.pcFits (s : State) (len : Nat) : Bool := decide (s.pc.toNat + len < s.addressTop)

/-- The checks before any operand is touched, in the order of R159; the refusals stand first (log 21). -/
def State.gate (s : State) (f : Form) (len : Nat) : Option Stop :=
  firstStop [
    stopIf s.modeRefused (.refused .modeOutsideModel),
    stopIf (!s.pcFits len) (.refused .addressSpaceTop),
    stopIf (Form.isVexOrEvex f && Mode.isRealOrV86 s.mode) (.fault .invalidOpcode),
    stopIf (!Form.reported f s.config.features) (.fault .invalidOpcode),
    stopIf (decide (s.config.maxvl.bits < Form.vl f)) (.fault .invalidOpcode),
    stopIf (!s.osEnabledUd f) (.fault .invalidOpcode),
    stopIf s.cr0TS (.fault .deviceNotAvailable),
    stopIf (f == .mmx && s.fpuPending) (.fault .x87FloatingPoint)]

/-- One instruction: the gate, then the last source, then the register write and the advance of `pc`
(60_exceptions.md R159; 20_memory.md R65). Any stop leaves nothing changed. -/
def State.run (s : State) (f : Form) (len : Nat) (source : Except Stop VReg) (write : VReg → State) : Outcome :=
  match s.gate f len with
  | some e => e.outcome
  | none =>
    match source with
    | .error e => e.outcome
    | .ok v => .next ((write v).advance len)

/-! ## The boot software (70_reset_and_hazards.md R181; log 5) -/

/-- What software must establish before the forms run, as R181 lists it: CR0.EM = 0, CR0.TS = 0,
CR4.OSFXSR = 1, CR4.OSXSAVE = 1, XCR0 bits 1, 2, 5, 6, 7 set, IA32_EFER.LMA = 1 and CS.L = 1. -/
def State.booted (s : State) : State :=
  { s with
    cr0 := s.cr0 &&& ~~~0xC
    cr4 := s.cr4 ||| 0x40200
    xcr0 := s.xcr0 ||| 0xE6
    efer := s.efer ||| 0x400
    csL := true
    fpuPending := false }

end Sys2Proof.Machine
end

