-- ==== Sys2Proof/Machine/Lanes.lean ====
section
/-! DEFINITION. The lane arithmetic shared by every form (40_mulhrs_lane.md). -/

namespace Sys2Proof.Machine

/-- `MULHRS16(a, b)`: the exact product as a signed 32-bit integer, shifted right by 14, plus 1, bits
16:1 (40_mulhrs_lane.md R110). -/
def mulhrs16 (a b : Lane) : Lane :=
  let p : BitVec 32 := BitVec.ofInt 32 (a.toInt * b.toInt)
  let t : BitVec 32 := p.sshiftRight 14 + 1
  t.extractLsb' 1 16

/-- Lane j: bits 16j+15 : 16j (00_scope.md R6). -/
def lane (v : VReg) (j : Nat) : Lane := v.extractLsb' (16 * j) 16

/-- The value whose lanes 0 to n-1 are `f 0` to `f (n-1)`, and 0 above them. -/
def ofLanes (f : Nat → Lane) : Nat → VReg
  | 0 => 0
  | n + 1 => ofLanes f n ||| ((f n).setWidth 512 <<< (16 * n))

/-- `MULHRS16` on `kl` pairs of lanes, zero above (40_mulhrs_lane.md R117). -/
def mulhrsLanes (kl : Nat) (a b : VReg) : VReg :=
  ofLanes (fun j => mulhrs16 (lane a j) (lane b j)) kl

/-- The same under a writemask: a lane whose mask bit is 0 keeps its old value (z = 0) or becomes 0
(z = 1) (43_vpmulhrsw_evex.md R140, R145). -/
def mulhrsMasked (kl : Nat) (m : Nat → Bool) (z : Bool) (old a b : VReg) : VReg :=
  ofLanes (fun j => if m j then mulhrs16 (lane a j) (lane b j) else if z then 0 else lane old j) kl

end Sys2Proof.Machine
end

