-- ==== Sys2Proof/Machine/Operands.lean ====
section
/-! DEFINITION. The operand forms: register numbers (30_encoding.md R86 to R88), effective addresses (R80 to
R84), and the read of a memory operand with its checks (20_memory.md). -/

namespace Sys2Proof.Machine

/-! ## Register numbers -/

/-- A register number from an extension bit 3 and a 3-bit field. -/
def num4 (hi : Bool) (lo : BitVec 3) : BitVec 4 := BitVec.ofBool hi ++ lo

/-- A vector register number from extension bits 4 and 3 and a 3-bit field. -/
def num5 (hi4 hi3 : Bool) (lo : BitVec 3) : BitVec 5 := BitVec.ofBool hi4 ++ BitVec.ofBool hi3 ++ lo

/-- VEX.vvvv as a vector register number (R87). -/
def Vex.source1 (v : Vex) : BitVec 5 := v.vvvv.setWidth 5

/-- V':vvvv (R88). -/
def Evex.source1 (e : Evex) : BitVec 5 := BitVec.ofBool e.vv ++ e.vvvv

/-! ## Effective addresses -/

/-- The addressing width: 64 in 64-bit mode, 32 with prefix 67 there; outside it 16 or 32 as `addr16`
says (R80, R84, R99). -/
def addressingBits (m : Mode) (pre : List Prefix) : Nat :=
  match m with
  | .bits64 => if hasAddrSize pre then 32 else 64
  | .real | .v86 | .prot16 | .prot32 => if addr16 m pre then 16 else 32

/-- A displacement, sign-extended; disp8 multiplied by `n`, which is VL/8 in the EVEX forms and 1
elsewhere (R82). -/
def Disp.value (n : Nat) : Disp → Word
  | .none => 0
  | .d8 v => v.signExtend 64 * BitVec.ofNat 64 n
  | .d32 v => v.signExtend 64

def Disp16.value (n : Nat) : Disp16 → Word
  | .none => 0
  | .d8 v => v.signExtend 64 * BitVec.ofNat 64 n
  | .d16 v => v.setWidth 64

/-- `Index * 2^scale`, where X:index = 0100 means no index (R81). -/
def State.sibIndex (s : State) (x : Bool) (scale : BitVec 2) (index : BitVec 3) : Word :=
  if num4 x index = 4 then 0 else s.x (num4 x index) <<< scale.toNat

/-- The register sums of 16-bit addressing (R84): BX+SI, BX+DI, BP+SI, BP+DI, SI, DI, BP, BX. -/
def State.base16 (s : State) (rm : BitVec 3) : Word :=
  if rm = 0 then s.x 3 + s.x 6
  else if rm = 1 then s.x 3 + s.x 7
  else if rm = 2 then s.x 5 + s.x 6
  else if rm = 3 then s.x 5 + s.x 7
  else if rm = 4 then s.x 6
  else if rm = 5 then s.x 7
  else if rm = 6 then s.x 5
  else s.x 3

/-- The sum of R80, R81, R83 and R84, before it is truncated. `xb` and `bb` are the extension bits X and B,
`n` scales disp8, `len` is the length of the instruction. -/
def State.addressSum (s : State) (xb bb : Bool) (n len : Nat) : Mem → Word
  | .base rm d => s.x (num4 bb rm) + Disp.value n d
  | .disp32 v =>
    if s.mode = .bits64 then s.pc + BitVec.ofNat 64 len + v.signExtend 64 else v.signExtend 64
  | .sib scale index b d => s.x (num4 bb b) + s.sibIndex xb scale index + Disp.value n d
  | .sibDisp32 scale index v => s.sibIndex xb scale index + v.signExtend 64
  | .base16 rm d => s.base16 rm + Disp16.value n d
  | .disp16 v => v.setWidth 64

/-- The effective address: the sum truncated to the addressing width (R80, R84). -/
def State.effectiveAddress (s : State) (pre : List Prefix) (xb bb : Bool) (n len : Nat) (m : Mem) : Word :=
  truncate (addressingBits s.mode pre) (s.addressSum xb bb n len m)

/-- Whether a base register is RSP/ESP or RBP/EBP. -/
def isStackBase (n : BitVec 4) : Bool := n == 4 || n == 5

/-- The segment without an override: SS when the base register is RSP/ESP/SP or RBP/EBP/BP, else DS
(R84). -/
def defaultSegment (bb : Bool) : Mem → Seg
  | .base rm _ => if isStackBase (num4 bb rm) then .ss else .ds
  | .sib _ _ b _ => if isStackBase (num4 bb b) then .ss else .ds
  | .base16 rm _ => if rm = 2 ∨ rm = 3 ∨ rm = 6 then .ss else .ds
  | .disp32 _ | .sibDisp32 .. | .disp16 _ => .ds

/-- The segment of a memory operand: the one an override names if there is one (R84). Which of several
overrides that name different segments counts, the spec does not say: a free value picks one of them
(log 16). -/
def segmentOf (mode : Mode) (pre : List Prefix) (bb : Bool) (m : Mem) : Seg :=
  match segOverrides pre with
  | [] => defaultSegment bb m
  | g :: t =>
    if t.all (· == g) then g
    else (g :: t)[Config.freeOverride mode pre % (g :: t).length]'(Nat.mod_lt _ (Nat.succ_pos _))

/-! ## The memory operand -/

/-- What disp8 is multiplied by: N = VL/8 in the EVEX forms, 1 elsewhere (R82). -/
def Form.dispScale (f : Form) : Nat := if Form.isEvex f then Form.bytes f else 1

/-- What the address must be a multiple of: 16 for F-SSE; for the other forms 1, or their size when
`ALIGN_CHECK_NONLEGACY` is set (20_memory.md R53, R54; D6). -/
def Form.alignment (f : Form) (c : Config) : Nat :=
  if f == .sse then 16 else if c.alignCheckNonLegacy then Form.bytes f else 1

/-- What the segment base must be a multiple of: 16 where the alignment is tested, whatever the form (D6,
U10), and 1 where it is not (log 15). -/
def Form.baseAlignment (f : Form) (c : Config) : Nat :=
  if f == .sse || c.alignCheckNonLegacy then 16 else 1

/-- A memory operand: segment and effective address. -/
structure Access where
  seg : Seg
  ea : Word
  deriving DecidableEq, Repr

/-- The linear address of the operand's first byte (20_memory.md R52, R60). -/
def State.operandAddress (s : State) (a : Access) : Nat := (s.linear a.seg a.ea).toNat

/-- The answer for byte `i` of an operand: in real-address mode a part outside 0 to 0xFFFF is #GP(0)
(60_exceptions.md R155; log 22); otherwise `Translate`. -/
def State.answerAt (s : State) (a : Access) (i : Nat) : Answer :=
  if s.mode = .real ∧ 0xFFFF < a.ea.toNat + i then .gp
  else s.translate .read a.seg (s.operandAddress a + i)

/-- The byte offsets that are checked: with `FAULT_SUPPRESSION` those of lanes whose mask bit is 1,
without it all of them (20_memory.md R59). -/
def State.checkedBytes (s : State) (f : Form) (lanes : Nat → Bool) : List Nat :=
  (List.range (Form.bytes f)).filter fun i => !s.config.faultSuppression || lanes (i / 2)

/-- A segment fault (60_exceptions.md R159 step 6, first part). -/
def Answer.segmentStop : Answer → Option Stop
  | .gp => some (.fault .generalProtection)
  | .ss => some (.fault .stackSegment)
  | .readable | .absent | .device | .pf _ => none

/-- A page fault at an address (60_exceptions.md R157). -/
def State.pageStop (s : State) (kind : AccessKind) (a : Nat) : Answer → Option Stop
  | .pf i => some (.fault (.pageFault (s.pageFaultCode kind i) (BitVec.ofNat 64 a)))
  | .readable | .absent | .device | .gp | .ss => none

/-- Alignment checking (20_memory.md R54, U20): an unaligned m64 of F-MMX is #AC(0); for an unaligned
operand of a VEX or EVEX form the spec leaves it to the implementation, and the model refuses. DESIGN CHOICE
(log 14): the address tested is the linear one, with any segment base (whether it is the effective or the
linear one, the spec leaves open), and an EVEX operand is tested whatever its writemask. -/
def State.alignmentCheckStop (s : State) (f : Form) (addr : Nat) : Option Stop :=
  stopIf (s.alignmentChecking && decide (addr % Form.bytes f ≠ 0))
    (if Form.isVexOrEvex f then .refused .alignmentCheckOpen else .fault .alignmentCheck)

/-- The checks of a memory operand, in the order of 60_exceptions.md R159 steps 5 and 6; a refusal
stands before the faults of its step (log 21). DESIGN CHOICE (log 28): the alignment #GP(0) of an EVEX operand
under `ALIGN_CHECK_NONLEGACY` is tested whatever the writemask, all zeros included. DESIGN CHOICE (log 29): for
every form other than F-SSE that #GP(0) stands where R159 step 5 puts the one of F-SSE, before #SS(0), #GP(0),
#AC(0) and #PF. -/
def State.operandStop (s : State) (f : Form) (lanes : Nat → Bool) (a : Access) : Option Stop :=
  firstStop [
    stopIf (decide ((s.segBase a.seg).toNat % Form.baseAlignment f s.config ≠ 0)) (.refused .unalignedSegmentBase),
    stopIf (decide (s.operandAddress a % Form.alignment f s.config ≠ 0)) (.fault .generalProtection),
    stopIf ((s.checkedBytes f lanes).any fun i => s.answerAt a i == .absent) (.refused .addressSpaceTop),
    stopIf ((s.checkedBytes f lanes).any fun i => s.answerAt a i == .device) (.refused .sideEffectingRead),
    (s.checkedBytes f lanes).findSome? fun i => Answer.segmentStop (s.answerAt a i),
    s.alignmentCheckStop f (s.operandAddress a),
    (s.checkedBytes f lanes).findSome? fun i =>
      s.pageStop .read (s.operandAddress a + i) (s.answerAt a i)]

/-- `MemRead` and `MemReadMasked` (00_scope.md R8, 43_vpmulhrsw_evex.md R140). -/
def State.readOperand (s : State) (f : Form) (lanes : Nat → Bool) (a : Access) : Except Stop VReg :=
  match s.operandStop f lanes a with
  | some e => .error e
  | none => .ok (Memory.readSelected s.mem (fun i => lanes (i / 2)) (s.operandAddress a) (Form.bytes f))

/-- The memory operand that an instruction names. -/
def State.access (s : State) (f : Form) (pre : List Prefix) (xb bb : Bool) (len : Nat) (m : Mem) : Access where
  seg := segmentOf s.mode pre bb m
  ea := s.effectiveAddress pre xb bb (Form.dispScale f) len m

/-- The last source: a register, whose value `reg` gives, or memory (30_encoding.md R85). -/
def State.source (s : State) (f : Form) (lanes : Nat → Bool) (pre : List Prefix) (xb bb : Bool) (len : Nat)
    (reg : BitVec 3 → VReg) : RM → Except Stop VReg
  | .reg r => .ok (reg r)
  | .mem m => s.readOperand f lanes (s.access f pre xb bb len m)

/-- No writemask: every lane. -/
def allLanes : Nat → Bool := fun _ => true

/-- The writemask aaa selects: none when aaa = 0, else K[aaa]; lane j looks at bit j (30_encoding.md R89,
43_vpmulhrsw_evex.md R140, R145). -/
def State.writemask (s : State) (aaa : BitVec 3) : Nat → Bool := fun j =>
  aaa == 0 || (s.opmask aaa).getLsbD j

end Sys2Proof.Machine
end

