-- ==== Sys2Proof/Machine/Evex.lean ====
section
/-! DEFINITION. The three EVEX forms (43_vpmulhrsw_evex.md). -/

namespace Sys2Proof.Machine

/-- The operation of R140: d = R':R:reg, s1 = V':vvvv, s2 = X:B:rm, under the writemask aaa selects; the
bits above VL become 0. -/
def evexOperation (f : Form) (pre : List Prefix) (e : Evex) (reg : BitVec 3) (rm : RM) (s : State) : Outcome :=
  let len := encodedLen pre 5 rm
  let m := s.writemask e.aaa
  let d := num5 e.rr e.r reg
  s.run f len
    (s.source f m pre e.x e.b len (fun r => s.v (num5 e.x e.b r)) rm)
    (fun src => s.writeV d (mulhrsMasked (Form.kl f) m e.z (s.v d) (s.v (Evex.source1 e)) src))

/-- VPMULHRSW xmm1 {k1}{z}, xmm2, xmm3/m128 (R141). -/
def execVpmulhrswEvex128 (pre : List Prefix) (e : Evex) (reg : BitVec 3) (rm : RM) (s : State) : Outcome :=
  evexOperation .evex128 pre e reg rm s

/-- VPMULHRSW ymm1 {k1}{z}, ymm2, ymm3/m256 (R142). -/
def execVpmulhrswEvex256 (pre : List Prefix) (e : Evex) (reg : BitVec 3) (rm : RM) (s : State) : Outcome :=
  evexOperation .evex256 pre e reg rm s

/-- VPMULHRSW zmm1 {k1}{z}, zmm2, zmm3/m512 (R143). -/
def execVpmulhrswEvex512 (pre : List Prefix) (e : Evex) (reg : BitVec 3) (rm : RM) (s : State) : Outcome :=
  evexOperation .evex512 pre e reg rm s

end Sys2Proof.Machine
end

