-- ==== Sys2Proof/Machine/Legacy.lean ====
section
/-! DEFINITION. The two legacy forms (41_pmulhrsw_legacy.md). -/

namespace Sys2Proof.Machine

/-- PMULHRSW mm1, mm2/m64 (R120). REX.R, and REX.B in the register form, are ignored (30_encoding.md R74,
R86); REX.X and REX.B extend the address registers. -/
def execPmulhrswMm (pre : List Prefix) (reg : BitVec 3) (rm : RM) (s : State) : Outcome :=
  let len := encodedLen pre 3 rm
  let rex := effectiveRex pre
  s.run .mmx len
    (s.source .mmx allLanes pre rex.x rex.b len (fun r => (s.mm r).setWidth 512) rm)
    (fun src => s.writeMm reg ((mulhrsLanes 4 ((s.mm reg).setWidth 512) src).setWidth 64))

/-- PMULHRSW xmm1, xmm2/m128 (R121): d = R:reg, s = B:rm, bits MAXVL-1:128 kept. -/
def execPmulhrswXmm (pre : List Prefix) (reg : BitVec 3) (rm : RM) (s : State) : Outcome :=
  let len := encodedLen pre 3 rm
  let rex := effectiveRex pre
  let d := num5 false rex.r reg
  s.run .sse len
    (s.source .sse allLanes pre rex.x rex.b len (fun r => s.v (num5 false rex.b r)) rm)
    (fun src => s.writeXmm d ((mulhrsLanes 8 (s.v d) src).setWidth 128))

end Sys2Proof.Machine
end

