-- ==== Sys2Proof/Machine/Vex.lean ====
section
/-! DEFINITION. The two VEX forms (42_vpmulhrsw_vex.md). -/

namespace Sys2Proof.Machine

/-- The operation of R130 and R131: d = R:reg, s1 = vvvv, s2 = B:rm; the lanes above VL become 0. -/
def vexOperation (f : Form) (pre : List Prefix) (v : Vex) (reg : BitVec 3) (rm : RM) (s : State) : Outcome :=
  let len := encodedLen pre 4 rm
  s.run f len
    (s.source f allLanes pre v.x v.b len (fun r => s.v (num5 false v.b r)) rm)
    (fun src => s.writeV (num5 false v.r reg) (mulhrsLanes (Form.kl f) (s.v (Vex.source1 v)) src))

/-- VPMULHRSW xmm1, xmm2, xmm3/m128 (R130). -/
def execVpmulhrswVex128 (pre : List Prefix) (v : Vex) (reg : BitVec 3) (rm : RM) (s : State) : Outcome :=
  vexOperation .vex128 pre v reg rm s

/-- VPMULHRSW ymm1, ymm2, ymm3/m256 (R131). -/
def execVpmulhrswVex256 (pre : List Prefix) (v : Vex) (reg : BitVec 3) (rm : RM) (s : State) : Outcome :=
  vexOperation .vex256 pre v reg rm s

end Sys2Proof.Machine
end

