-- ==== Sys2Proof/Machine/Dispatch.lean ====
section
/-! DEFINITION. One arm per instruction. -/

namespace Sys2Proof.Machine

def exec (i : Instr) (s : State) : Host.Outcome State Fault Refusal :=
  match i with
  | .pmulhrswMm pre reg rm => Sys2Proof.Machine.execPmulhrswMm pre reg rm s
  | .pmulhrswXmm pre reg rm => Sys2Proof.Machine.execPmulhrswXmm pre reg rm s
  | .vpmulhrswVex128 pre v reg rm => Sys2Proof.Machine.execVpmulhrswVex128 pre v reg rm s
  | .vpmulhrswVex256 pre v reg rm => Sys2Proof.Machine.execVpmulhrswVex256 pre v reg rm s
  | .vpmulhrswEvex128 pre e reg rm => Sys2Proof.Machine.execVpmulhrswEvex128 pre e reg rm s
  | .vpmulhrswEvex256 pre e reg rm => Sys2Proof.Machine.execVpmulhrswEvex256 pre e reg rm s
  | .vpmulhrswEvex512 pre e reg rm => Sys2Proof.Machine.execVpmulhrswEvex512 pre e reg rm s

end Sys2Proof.Machine
end

