-- ==== Sys2Proof/Machine/Fetch.lean ====
section
/-! DEFINITION. Fetching an instruction's bytes (10_state.md R27, R32; 60_exceptions.md R159 step 1; log 8),
what a step answers where they decode to no instruction, and the loading of a program (log 5). -/

namespace Sys2Proof.Machine

/-- Why no further byte is fetched. -/
inductive FetchEnd
  /-- 15 bytes are there, the longest instruction (30_encoding.md R72). -/
  | limit
  /-- The next byte cannot be fetched. -/
  | stop (e : Stop)
  deriving DecidableEq, Repr

/-- What an unfetchable byte stops the machine with, if it is needed (60_exceptions.md R159 step 1). -/
def State.fetchStop (s : State) (a : Nat) : Answer → Option Stop
  | .readable => none
  | .absent => some (.refused .addressSpaceTop)
  | .device => some (.refused .sideEffectingRead)
  | .gp => some (.fault .generalProtection)
  | .ss => some (.fault .stackSegment)
  | .pf i => some (.fault (.pageFault (s.pageFaultCode .fetch i) (BitVec.ofNat 64 a)))

/-- Up to `n` bytes at a linear address, as far as they can be fetched, and why they end. -/
def State.fetchFrom (s : State) (a : Nat) : Nat → List Byte × FetchEnd
  | 0 => ([], .limit)
  | n + 1 =>
    match s.fetchStop a (s.translate .fetch .cs a) with
    | some e => ([], .stop e)
    | none => (Memory.read s.mem a :: (s.fetchFrom (a + 1) n).1, (s.fetchFrom (a + 1) n).2)

/-- The linear address of the instruction: CS base plus `pc`. -/
def State.fetchAddress (s : State) : Nat := (s.linear .cs s.pc).toNat

/-- The bytes at `pc`, at most 15, and why they end. -/
def State.fetchWindow (s : State) : List Byte × FetchEnd := s.fetchFrom s.fetchAddress maxLen

/-- The answer where the fetched bytes are no instruction of the model. Where the decoder needs a byte
beyond the fifteenth, the instruction is longer than 15 bytes (30_encoding.md R72). DESIGN CHOICE (log 30): the
answer does not depend on where `pc + len` would fall, so an over-long or reserved encoding is #GP(0) or #UD also
where `pc + len` reaches the top of the address space, a placement R28 and D8 refuse. -/
def decodeFailure (w : FetchEnd) : DecodeError → Outcome
  | .truncated =>
    match w with
    | .limit => raise .generalProtection
    | .stop e => e.outcome
  | .tooLong => raise .generalProtection
  | .invalid => raise .invalidOpcode
  | .notThis => .refused .notThisInstruction
  | .extension => .refused .extensionOutside64

/-- Place bytes where the next instruction is fetched. -/
def State.loadAtPc (s : State) (bs : List Byte) : State :=
  { s with mem := Memory.writeBytes s.mem s.fetchAddress bs }

/-- From a mode D5 refuses, the boot software of R181 runs first (log 5). -/
def State.bootIfNeeded (s : State) : State := if modeInScope s.mode then s else s.booted

end Sys2Proof.Machine
end

