-- ==== Sys2Proof/Machine/Step.lean ====
section
/-! DEFINITION. One step: the instruction at `pc` is fetched, decoded and executed whole (00_scope.md R12). -/

namespace Sys2Proof.Machine

/-- One step of the machine. The refusal of R28 for `pc + len` at the top of the address space stands in the gate of
`exec`, after the decoder's faults (log 30, DESIGN CHOICE). -/
def step (s : State) : Host.Outcome State Fault Refusal :=
  if s.modeRefused then .refused .modeOutsideModel
  else
    match decode s.mode s.fetchWindow.1 with
    | .ok (i, _) => exec i s
    | .error e => decodeFailure s.fetchWindow.2 e

/-- The state with a word of the opcode table stored where `step` fetches its next instruction; from a
mode D5 refuses (the mode after reset is one), after the boot software of R181 (log 5, log 6). -/
def State.withFetchWord (s : State) (nbits w : Nat) : State :=
  s.bootIfNeeded.loadAtPc (tableBytes nbits w)

end Sys2Proof.Machine
end

