-- ==== Sys2Proof/WellFormed.lean ====
section
/-! DEFINITION. Which terms of `Instr` are instructions: the checks of 30_encoding.md R71 to R75, R77,
R80, R84, R90 to R92 and D13, in a mode. (What the checks count and look up is defined in Decode.lean.) -/

namespace Sys2Proof

/-- A memory operand that ModRM can spell with this addressing (30_encoding.md R80, R81, R84): rm = 100
is the SIB form, rm = 101 and SIB base = 101 with mod = 00 are the forms with a displacement alone. -/
def Mem.wf (a16 : Bool) : Mem → Bool
  | .base rm d => !a16 && rm != 4 && !(rm == 5 && d == .none)
  | .disp32 _ => !a16
  | .sib _ _ b d => !a16 && !(b == 5 && d == .none)
  | .sibDisp32 .. => !a16
  | .base16 rm d => a16 && !(rm == 6 && d == .none)
  | .disp16 _ => a16

def RM.wf (a16 : Bool) : RM → Bool
  | .reg _ => true
  | .mem m => m.wf a16

/-- The prefixes of a legacy form: no reserved one, REX only in 64-bit mode (R71, R90). -/
def legacyPrefixes (m : Mode) (pre : List Prefix) : Bool :=
  pre.all fun p => !p.isReserved && p.existsIn m

/-- The prefixes of a VEX or EVEX form (R71, R91, R92). -/
def vexPrefixes (pre : List Prefix) : Bool :=
  pre.all Prefix.beforeVex

/-- The VEX and EVEX fields outside 64-bit mode name registers 0 to 7 only (R75, R77, D5). -/
def Vex.wf (m : Mode) (v : Vex) : Bool := m == .bits64 || !v.extended

/-- As for VEX, and zeroing needs a writemask (R92). -/
def Evex.wf (m : Mode) (e : Evex) : Bool :=
  (m == .bits64 || !e.extended) && !(e.z && e.aaa == 0)

/-- The well-formed instructions of a mode. -/
def Instr.wf (m : Mode) (i : Instr) : Bool :=
  decide (i.len ≤ maxLen) &&
  match i with
  | .pmulhrswMm pre _ rm => legacyPrefixes m pre && !hasOpSize pre && rm.wf (addr16 m pre)
  | .pmulhrswXmm pre _ rm => legacyPrefixes m pre && hasOpSize pre && rm.wf (addr16 m pre)
  | .vpmulhrswVex128 pre v _ rm => vexPrefixes pre && v.wf m && rm.wf (addr16 m pre)
  | .vpmulhrswVex256 pre v _ rm => vexPrefixes pre && v.wf m && rm.wf (addr16 m pre)
  | .vpmulhrswEvex128 pre e _ rm => vexPrefixes pre && e.wf m && rm.wf (addr16 m pre)
  | .vpmulhrswEvex256 pre e _ rm => vexPrefixes pre && e.wf m && rm.wf (addr16 m pre)
  | .vpmulhrswEvex512 pre e _ rm => vexPrefixes pre && e.wf m && rm.wf (addr16 m pre)

end Sys2Proof
end

