-- ==== Sys2Proof/Safety.lean ====
section
/-! DEFINITION. What counts as a safe step and a sound state, and the conditions, written from the spec's
own lists, under which a form completes: the terms the statements use. -/

namespace Sys2Proof.Machine

/-- A step is safe when it answers a next state: no fault and no refusal. -/
def SafeStep (s : State) : Prop := ∃ t, step s = .next t

/-- What must hold before a form executes as its rule says (70_reset_and_hazards.md R181, with the modes
of 60_exceptions.md R161, `MAXVL` of D2 and the top of the address space of 10_state.md R28). -/
structure Ready (f : Form) (len : Nat) (s : State) : Prop where
  /-- 64-bit or 32-bit mode, or the configuration asks for the other modes. -/
  mode : s.mode = .bits64 ∨ s.mode = .prot32 ∨ s.config.otherModes = true
  /-- The VEX and EVEX forms need protected or 64-bit mode. -/
  protectedMode : f ≠ .mmx → f ≠ .sse → s.mode ≠ .real ∧ s.mode ≠ .v86
  /-- The instruction does not reach the top of the address space. -/
  pcBelowTop : s.pc.toNat + len < if s.mode = .bits64 then 2 ^ 64 else 2 ^ 32
  /-- SSSE3 reported. -/
  ssse3 : f = .mmx ∨ f = .sse → s.config.features.ssse3 = true
  /-- AVX reported. -/
  avx : f = .vex128 → s.config.features.avx = true
  /-- AVX2 reported. -/
  avx2 : f = .vex256 → s.config.features.avx2 = true
  /-- AVX512BW reported. -/
  avx512bw : f = .evex128 ∨ f = .evex256 ∨ f = .evex512 → s.config.features.avx512bw = true
  /-- AVX512VL reported. -/
  avx512vl : f = .evex128 ∨ f = .evex256 → s.config.features.avx512vl = true
  /-- The form exists under `MAXVL`. -/
  width : Form.vl f ≤ s.config.maxvl.bits
  /-- CR0.EM = 0. -/
  em : f = .mmx ∨ f = .sse → s.cr0.getLsbD 2 = false
  /-- CR0.TS = 0. -/
  ts : s.cr0.getLsbD 3 = false
  /-- CR4.OSFXSR = 1. -/
  osfxsr : f = .sse → s.cr4.getLsbD 9 = true
  /-- CR4.OSXSAVE = 1. -/
  osxsave : f ≠ .mmx → f ≠ .sse → s.cr4.getLsbD 18 = true
  /-- XCR0 bits 1 and 2. -/
  xcr0Avx : f ≠ .mmx → f ≠ .sse → s.xcr0.getLsbD 1 = true ∧ s.xcr0.getLsbD 2 = true
  /-- XCR0 bits 5, 6 and 7. -/
  xcr0Avx512 : f = .evex128 ∨ f = .evex256 ∨ f = .evex512 →
    s.xcr0.getLsbD 5 = true ∧ s.xcr0.getLsbD 6 = true ∧ s.xcr0.getLsbD 7 = true
  /-- No x87 exception pending. -/
  noPending : f = .mmx → s.fpuPending = false

/-- What must hold of a memory operand (70_reset_and_hazards.md R181; 20_memory.md R53, R54, R57, R59):
the bytes that count are readable, the address is a multiple of what the form asks for, and the segment base is
a multiple of 16 where the alignment is tested (D6). -/
structure OperandReady (f : Form) (lanes : Nat → Bool) (a : Access) (s : State) : Prop where
  segmentBase : (s.segBase a.seg).toNat % Form.baseAlignment f s.config = 0
  aligned : s.operandAddress a % Form.alignment f s.config = 0
  alignmentCheck : s.alignmentChecking = true → s.operandAddress a % Form.bytes f = 0
  readable : ∀ i < Form.bytes f, (s.config.faultSuppression = true → lanes (i / 2) = true) →
    s.answerAt a i = .readable

/-- `OperandReady` where the last source is in memory; nothing where it is a register. -/
def SourceReady (f : Form) (lanes : Nat → Bool) (pre : List Prefix) (xb bb : Bool) (len : Nat) (rm : RM)
    (s : State) : Prop :=
  ∀ m, rm = .mem m → OperandReady f lanes (s.access f pre xb bb len m) s

/-- Lane j of a memory operand at an address: its low byte at A + 2j, its high byte at A + 2j + 1
(20_memory.md R51). -/
def memoryLane (s : State) (address j : Nat) : Lane :=
  Memory.read s.mem (address + 2 * j + 1) ++ Memory.read s.mem (address + 2 * j)

/-- Lane j of the last source: of a vector register or of memory. -/
def sourceLane (s : State) (f : Form) (pre : List Prefix) (xb bb : Bool) (len : Nat)
    (reg : BitVec 3 → BitVec 5) (j : Nat) : RM → Lane
  | .reg r => lane (s.v (reg r)) j
  | .mem m => memoryLane s (s.operandAddress (s.access f pre xb bb len m)) j

/-- The closed form of the lane function: `floor((P + 16384) / 32768) mod 65536` (40_mulhrs_lane.md
R112). -/
def roundedProduct (a b : Lane) : Lane := BitVec.ofInt 16 ((a.toInt * b.toInt + 16384) / 32768)

/-- The sound states: memory in canonical form; no vector register has a bit at or above `MAXVL`
(10_state.md R23: a register is `MAXVL` bits wide); outside 64-bit mode the instruction pointer is 32 bits
wide (10_state.md R27). -/
structure Inv (s : State) : Prop where
  memory : Memory.wf s.mem
  vectors : ∀ n : BitVec 5, (s.v n).toNat < 2 ^ s.config.maxvl.bits
  pointer : s.mode ≠ .bits64 → s.pc.toNat < 2 ^ 32

end Sys2Proof.Machine
end

