-- ==== Sys2Proof/Certificates/Slice0/Obligations.lean ====
section
/-! DEFINITION. The statements for the provers. Each docstring names the rule of the spec it formalises. -/

open Sys2Proof Sys2Proof.Machine

/-! ## The lane function (40_mulhrs_lane.md) -/

/-- R110: the exact product as a signed 32-bit integer, truncated to its 18 most significant bits, 1 added to
the least significant of them, and the 16 bits immediately to the right of the most significant one; and as the
pseudocode writes it, with a 32-bit addition. The worked pair follows. -/
def Obligations.LaneTruncatesAddsOneAndSelects : Prop :=
  (∀ a b : Lane,
    mulhrs16 a b = ((BitVec.ofInt 32 (a.toInt * b.toInt)).extractLsb' 14 18 + 1).extractLsb' 1 16 ∧
    mulhrs16 a b = (((BitVec.ofInt 32 (a.toInt * b.toInt)) >>> 14) + 1).extractLsb' 1 16) ∧
  mulhrs16 0x1234 0x5678 = 0x0C4C

/-- R113: both operands are read as two's complement signed 16-bit integers; read as a signed integer, the
result is the rounded quotient whenever that quotient lies in -32768 to 32767. -/
def Obligations.LaneIsTheRoundedQuotientWhenItFits : Prop :=
  ∀ a b : Lane, -32768 ≤ (a.toInt * b.toInt + 16384) / 32768 → (a.toInt * b.toInt + 16384) / 32768 ≤ 32767 →
    (mulhrs16 a b).toInt = (a.toInt * b.toInt + 16384) / 32768

/-- R112: MULHRS16(a, b) is `floor((P + 16384) / 32768) mod 65536`, and the same as
`((P + 0x4000) >> 15)[15:0]` with an arithmetic shift. -/
def Obligations.LaneIsRoundedQuotient : Prop :=
  ∀ a b : Lane,
    mulhrs16 a b = BitVec.ofInt 16 ((a.toInt * b.toInt + 16384) / 32768) ∧
    mulhrs16 a b = ((BitVec.ofInt 32 (a.toInt * b.toInt) + 0x4000).sshiftRight 15).extractLsb' 0 16

/-- R111: the product lies in -1073709056 to 1073741824, so it fits a signed 32-bit integer; the arithmetic and
the logical shift by 14 agree on bits 17:0, whose bits 16:0 are p[30:14], and the result is the same under
both. -/
def Obligations.LaneProductFitsAndShiftKindIsIrrelevant : Prop :=
  ∀ a b : Lane,
    -1073709056 ≤ a.toInt * b.toInt ∧ a.toInt * b.toInt ≤ 1073741824 ∧
    (BitVec.ofInt 32 (a.toInt * b.toInt)).toInt = a.toInt * b.toInt ∧
    ((BitVec.ofInt 32 (a.toInt * b.toInt)).sshiftRight 14).extractLsb' 0 18 =
      ((BitVec.ofInt 32 (a.toInt * b.toInt)) >>> 14).extractLsb' 0 18 ∧
    ((BitVec.ofInt 32 (a.toInt * b.toInt)) >>> 14).extractLsb' 0 17 =
      (BitVec.ofInt 32 (a.toInt * b.toInt)).extractLsb' 14 17 ∧
    ((BitVec.ofInt 32 (a.toInt * b.toInt)).sshiftRight 14 + 1).extractLsb' 1 16 =
      (((BitVec.ofInt 32 (a.toInt * b.toInt)) >>> 14) + 1).extractLsb' 1 16 ∧
    mulhrs16 a b = (((BitVec.ofInt 32 (a.toInt * b.toInt)) >>> 14) + 1).extractLsb' 1 16

/-- R115: the rounded quotient lies in -32767 to 32768; it leaves the signed 16-bit range for the one pair
a = b = 0x8000, where the result wraps to 0x8000; for every other pair the result is exact. -/
def Obligations.LaneOverflowsForOnePairOnly : Prop :=
  (∀ a b : Lane, -32767 ≤ (a.toInt * b.toInt + 16384) / 32768 ∧
    (a.toInt * b.toInt + 16384) / 32768 ≤ 32768 ∧
    ((a.toInt * b.toInt + 16384) / 32768 = 32768 ↔ a = 0x8000 ∧ b = 0x8000) ∧
    (¬(a = 0x8000 ∧ b = 0x8000) → (mulhrs16 a b).toInt = (a.toInt * b.toInt + 16384) / 32768)) ∧
  mulhrs16 0x8000 0x8000 = 0x8000 ∧ mulhrs16 0x8000 0x8001 = 0x7FFF ∧ mulhrs16 0x8000 0x7FFF = 0x8001

/-- R114: the result is P / 32768 rounded to nearest with a tie rounded toward plus infinity: P lies in the
half-open interval of width 32768 centred on 32768 times the result. The three worked cases follow. -/
def Obligations.LaneRoundsToNearestTiesUp : Prop :=
  (∀ a b : Lane, ¬(a = 0x8000 ∧ b = 0x8000) →
    32768 * (mulhrs16 a b).toInt - 16384 ≤ a.toInt * b.toInt ∧
    a.toInt * b.toInt < 32768 * (mulhrs16 a b).toInt + 16384) ∧
  mulhrs16 0x0001 0x4000 = 0x0001 ∧ mulhrs16 0xFFFF 0x4000 = 0x0000 ∧ mulhrs16 0xFFFF 0x4001 = 0xFFFF

/-- R116 (a) to (f): commutative, zero, not odd, 0x7FFF is no unit, 0x4000 halves rounding up, 0x8000
negates. -/
def Obligations.LaneLaws : Prop :=
  (∀ a b : Lane, mulhrs16 a b = mulhrs16 b a) ∧
  (∀ a : Lane, mulhrs16 a 0 = 0) ∧
  (∃ a b : Lane, mulhrs16 (-a) b ≠ -(mulhrs16 a b)) ∧
  mulhrs16 0x7FFF 0x7FFF = 0x7FFE ∧
  (∀ a : Lane, mulhrs16 a 0x4000 = BitVec.ofInt 16 ((a.toInt + 1) / 2)) ∧
  (∀ a : Lane, mulhrs16 a 0x8000 = -a)

/-! ## The seven forms: result, completion and frame -/

/-- R120 with R22: PMULHRSW mm1, mm2/m64 completes from every ready state, register and memory form. The clauses
about x87 state, and that the register behind MM[n] is x87 data register n, are the model's choice: D12 leaves
x87 out of the spec's own model, and log 13 takes it in (PRESUMED, the numbering DEDUCED). Each of the four lanes
of MM[reg] becomes the rounded product of its old value and the source's lane; bits 79:64 of the x87 register
behind it become ones, the x87 tag word and top-of-stack field become 0; the other x87 registers and every other
field keep their values; `pc` advances by the length. -/
def Obligations.MmxFormMultipliesFourLanes : Prop :=
  ∀ (pre : List Prefix) (reg : BitVec 3) (rm : RM) (s : State),
    Ready .mmx (Instr.pmulhrswMm pre reg rm).len s →
    SourceReady .mmx allLanes pre (effectiveRex pre).x (effectiveRex pre).b
      (Instr.pmulhrswMm pre reg rm).len rm s →
    ∃ t, exec (.pmulhrswMm pre reg rm) s = .next t ∧
      t = { s with
        pc := s.pc + BitVec.ofNat 64 (Instr.pmulhrswMm pre reg rm).len
        x87 := t.x87, fpuTag := 0, fpuTop := 0 } ∧
      (∀ n : BitVec 3, n ≠ reg → t.x87[n.toNat]'n.isLt = s.x87[n.toNat]'n.isLt) ∧
      (t.x87[reg.toNat]'reg.isLt).extractLsb' 64 16 = 0xFFFF ∧
      ∀ j < 4, (t.mm reg).extractLsb' (16 * j) 16 =
        roundedProduct ((s.mm reg).extractLsb' (16 * j) 16)
          (match rm with
           | .reg r => (s.mm r).extractLsb' (16 * j) 16
           | .mem m => memoryLane s (s.operandAddress (s.access .mmx pre (effectiveRex pre).x
               (effectiveRex pre).b (Instr.pmulhrswMm pre reg rm).len m)) j)

/-- R121: PMULHRSW xmm1, xmm2/m128 completes from every ready state. Lanes 0 to 7 of V[R:reg] become the
rounded products, bits 511:128 (so bits MAXVL-1:128) of it keep their value; every other vector register and
every other field keeps its value; `pc` advances by the length. -/
def Obligations.SseFormMultipliesEightLanesAndKeepsTheUpperBits : Prop :=
  ∀ (pre : List Prefix) (reg : BitVec 3) (rm : RM) (s : State),
    Ready .sse (Instr.pmulhrswXmm pre reg rm).len s →
    SourceReady .sse allLanes pre (effectiveRex pre).x (effectiveRex pre).b
      (Instr.pmulhrswXmm pre reg rm).len rm s →
    ∃ t, exec (.pmulhrswXmm pre reg rm) s = .next t ∧
      t = { s with pc := s.pc + BitVec.ofNat 64 (Instr.pmulhrswXmm pre reg rm).len, vec := t.vec } ∧
      (∀ n : BitVec 5, n ≠ num5 false (effectiveRex pre).r reg → t.v n = s.v n) ∧
      (t.v (num5 false (effectiveRex pre).r reg)).extractLsb' 128 384 =
        (s.v (num5 false (effectiveRex pre).r reg)).extractLsb' 128 384 ∧
      ∀ j < 8, lane (t.v (num5 false (effectiveRex pre).r reg)) j =
        roundedProduct (lane (s.v (num5 false (effectiveRex pre).r reg)) j)
          (sourceLane s .sse pre (effectiveRex pre).x (effectiveRex pre).b
            (Instr.pmulhrswXmm pre reg rm).len (fun r => num5 false (effectiveRex pre).b r) j rm)

/-- R130: VPMULHRSW xmm1, xmm2, xmm3/m128 (VEX) completes from every ready state. Lanes 0 to 7 of V[R:reg]
become the rounded products of V[vvvv] and the last source, the lanes above become 0; every other vector
register and every other field keeps its value; `pc` advances by the length. -/
def Obligations.Vex128FormMultipliesEightLanesAndZeroesTheRest : Prop :=
  ∀ (pre : List Prefix) (v : Vex) (reg : BitVec 3) (rm : RM) (s : State),
    Ready .vex128 (Instr.vpmulhrswVex128 pre v reg rm).len s →
    SourceReady .vex128 allLanes pre v.x v.b (Instr.vpmulhrswVex128 pre v reg rm).len rm s →
    ∃ t, exec (.vpmulhrswVex128 pre v reg rm) s = .next t ∧
      t = { s with pc := s.pc + BitVec.ofNat 64 (Instr.vpmulhrswVex128 pre v reg rm).len, vec := t.vec } ∧
      (∀ n : BitVec 5, n ≠ num5 false v.r reg → t.v n = s.v n) ∧
      ∀ j < 32, lane (t.v (num5 false v.r reg)) j =
        if j < 8 then
          roundedProduct (lane (s.v (v.vvvv.setWidth 5)) j)
            (sourceLane s .vex128 pre v.x v.b (Instr.vpmulhrswVex128 pre v reg rm).len
              (fun r => num5 false v.b r) j rm)
        else 0

/-- R131: VPMULHRSW ymm1, ymm2, ymm3/m256 (VEX), as R130 with 16 lanes. -/
def Obligations.Vex256FormMultipliesSixteenLanesAndZeroesTheRest : Prop :=
  ∀ (pre : List Prefix) (v : Vex) (reg : BitVec 3) (rm : RM) (s : State),
    Ready .vex256 (Instr.vpmulhrswVex256 pre v reg rm).len s →
    SourceReady .vex256 allLanes pre v.x v.b (Instr.vpmulhrswVex256 pre v reg rm).len rm s →
    ∃ t, exec (.vpmulhrswVex256 pre v reg rm) s = .next t ∧
      t = { s with pc := s.pc + BitVec.ofNat 64 (Instr.vpmulhrswVex256 pre v reg rm).len, vec := t.vec } ∧
      (∀ n : BitVec 5, n ≠ num5 false v.r reg → t.v n = s.v n) ∧
      ∀ j < 32, lane (t.v (num5 false v.r reg)) j =
        if j < 16 then
          roundedProduct (lane (s.v (v.vvvv.setWidth 5)) j)
            (sourceLane s .vex256 pre v.x v.b (Instr.vpmulhrswVex256 pre v reg rm).len
              (fun r => num5 false v.b r) j rm)
        else 0

/-- R140, R141, R145: VPMULHRSW xmm1 {k1}{z}, xmm2, xmm3/m128 (EVEX) completes from every ready state. Lane
j below 8 whose mask bit is 1 (every lane when aaa = 0, else bit j of K[aaa]) becomes the rounded product;
one whose mask bit is 0 keeps its old value under merging and becomes 0 under zeroing; the lanes from 8 up
become 0; every other vector register and every other field, the opmask registers among them, keeps its
value; `pc` advances by the length. -/
def Obligations.Evex128FormMultipliesTheLanesOfItsMask : Prop :=
  ∀ (pre : List Prefix) (e : Evex) (reg : BitVec 3) (rm : RM) (s : State),
    Ready .evex128 (Instr.vpmulhrswEvex128 pre e reg rm).len s →
    SourceReady .evex128 (fun j => e.aaa == 0 || (s.opmask e.aaa).getLsbD j) pre e.x e.b
      (Instr.vpmulhrswEvex128 pre e reg rm).len rm s →
    ∃ t, exec (.vpmulhrswEvex128 pre e reg rm) s = .next t ∧
      t = { s with pc := s.pc + BitVec.ofNat 64 (Instr.vpmulhrswEvex128 pre e reg rm).len, vec := t.vec } ∧
      (∀ n : BitVec 5, n ≠ num5 e.rr e.r reg → t.v n = s.v n) ∧
      ∀ j < 32, lane (t.v (num5 e.rr e.r reg)) j =
        if j < 8 then
          if e.aaa = 0 ∨ (s.opmask e.aaa).getLsbD j = true then
            roundedProduct (lane (s.v (BitVec.ofBool e.vv ++ e.vvvv)) j)
              (sourceLane s .evex128 pre e.x e.b (Instr.vpmulhrswEvex128 pre e reg rm).len
                (fun r => num5 e.x e.b r) j rm)
          else if e.z = true then 0
          else lane (s.v (num5 e.rr e.r reg)) j
        else 0

/-- R140, R142, R145: VPMULHRSW ymm1 {k1}{z}, ymm2, ymm3/m256 (EVEX), as R141 with 16 lanes. -/
def Obligations.Evex256FormMultipliesTheLanesOfItsMask : Prop :=
  ∀ (pre : List Prefix) (e : Evex) (reg : BitVec 3) (rm : RM) (s : State),
    Ready .evex256 (Instr.vpmulhrswEvex256 pre e reg rm).len s →
    SourceReady .evex256 (fun j => e.aaa == 0 || (s.opmask e.aaa).getLsbD j) pre e.x e.b
      (Instr.vpmulhrswEvex256 pre e reg rm).len rm s →
    ∃ t, exec (.vpmulhrswEvex256 pre e reg rm) s = .next t ∧
      t = { s with pc := s.pc + BitVec.ofNat 64 (Instr.vpmulhrswEvex256 pre e reg rm).len, vec := t.vec } ∧
      (∀ n : BitVec 5, n ≠ num5 e.rr e.r reg → t.v n = s.v n) ∧
      ∀ j < 32, lane (t.v (num5 e.rr e.r reg)) j =
        if j < 16 then
          if e.aaa = 0 ∨ (s.opmask e.aaa).getLsbD j = true then
            roundedProduct (lane (s.v (BitVec.ofBool e.vv ++ e.vvvv)) j)
              (sourceLane s .evex256 pre e.x e.b (Instr.vpmulhrswEvex256 pre e reg rm).len
                (fun r => num5 e.x e.b r) j rm)
          else if e.z = true then 0
          else lane (s.v (num5 e.rr e.r reg)) j
        else 0

/-- R140, R143, R145: VPMULHRSW zmm1 {k1}{z}, zmm2, zmm3/m512 (EVEX), as R141 with 32 lanes. -/
def Obligations.Evex512FormMultipliesTheLanesOfItsMask : Prop :=
  ∀ (pre : List Prefix) (e : Evex) (reg : BitVec 3) (rm : RM) (s : State),
    Ready .evex512 (Instr.vpmulhrswEvex512 pre e reg rm).len s →
    SourceReady .evex512 (fun j => e.aaa == 0 || (s.opmask e.aaa).getLsbD j) pre e.x e.b
      (Instr.vpmulhrswEvex512 pre e reg rm).len rm s →
    ∃ t, exec (.vpmulhrswEvex512 pre e reg rm) s = .next t ∧
      t = { s with pc := s.pc + BitVec.ofNat 64 (Instr.vpmulhrswEvex512 pre e reg rm).len, vec := t.vec } ∧
      (∀ n : BitVec 5, n ≠ num5 e.rr e.r reg → t.v n = s.v n) ∧
      ∀ j < 32, lane (t.v (num5 e.rr e.r reg)) j =
        if e.aaa = 0 ∨ (s.opmask e.aaa).getLsbD j = true then
          roundedProduct (lane (s.v (BitVec.ofBool e.vv ++ e.vvvv)) j)
            (sourceLane s .evex512 pre e.x e.b (Instr.vpmulhrswEvex512 pre e reg rm).len
              (fun r => num5 e.x e.b r) j rm)
        else if e.z = true then 0
        else lane (s.v (num5 e.rr e.r reg)) j

/-! ## What every instruction leaves unchanged -/

/-- R20, R29, R30, R31, R50, R62: whatever instruction completes, it leaves the general-purpose, opmask,
segment and control registers, the flags, MXCSR, the mode and privilege level, the pending x87 exception,
the configuration and every byte of memory as they were; only F-MMX changes x87 state, and F-MMX changes no
vector register. -/
def Obligations.EveryInstructionLeavesTheRestUnchanged : Prop :=
  ∀ (i : Instr) (s t : State), exec i s = .next t →
    t = { s with pc := t.pc, x87 := t.x87, fpuTag := t.fpuTag, fpuTop := t.fpuTop, vec := t.vec } ∧
    ((∃ pre reg rm, i = .pmulhrswMm pre reg rm) → t.vec = s.vec) ∧
    ((∀ pre reg rm, i ≠ .pmulhrswMm pre reg rm) →
      t.x87 = s.x87 ∧ t.fpuTag = s.fpuTag ∧ t.fpuTop = s.fpuTop) ∧
    ∀ a : Nat, Memory.read t.mem a = Memory.read s.mem a

/-- R30: no form reads or writes MXCSR (with another MXCSR the outcome is the same, and the next state differs in
MXCSR alone, which keeps its value), and none signals a SIMD floating-point exception (vector 19). -/
def Obligations.MxcsrIsNeitherReadNorWritten : Prop :=
  ∀ (i : Instr) (s : State) (m : BitVec 32),
    exec i { s with mxcsr := m } =
      (match exec i s with
        | .next t => .next { t with mxcsr := m }
        | .fault f => .fault f
        | .refused r => .refused r) ∧
    ∀ f, exec i s = .fault f → f.vector ≠ 19

/-- R29, with the exception of R31: no form reads or writes any bit of the flags register, but for the check of
EFLAGS.AC (bit 18) on a memory operand. With any other flags that agree on that bit the outcome is the same, and
the flags keep their value. -/
def Obligations.FlagsAreNeitherReadNorWritten : Prop :=
  ∀ (i : Instr) (s : State) (r : Word), r.getLsbD 18 = s.rflags.getLsbD 18 →
    exec i { s with rflags := r } =
      (match exec i s with
        | .next t => .next { t with rflags := r }
        | .fault f => .fault f
        | .refused x => .refused x)

/-- R28: a step that completes ran one decoded instruction, at most 15 bytes long (R72); it moves `pc`
forward by exactly the instruction's length, and the new `pc` is an address of the mode. -/
def Obligations.StepAdvancesPcByTheLength : Prop :=
  ∀ s t : State, step s = .next t →
    ∃ i rest, decode s.mode s.fetchWindow.1 = .ok (i, rest) ∧ 1 ≤ i.len ∧ i.len ≤ 15 ∧
      t.pc = s.pc + BitVec.ofNat 64 i.len ∧ t.pc.toNat = s.pc.toNat + i.len ∧
      t.pc.toNat < (if s.mode = .bits64 then 2 ^ 64 else 2 ^ 32)

/-- Every step keeps the sound states sound: memory stays canonical, no vector register gets a bit at or
above `MAXVL` (R23), the instruction pointer stays 32 bits wide outside 64-bit mode (R27). -/
def Obligations.StepKeepsTheStateSound : Prop :=
  ∀ s t : State, Inv s → step s = .next t → Inv t

/-- The reset state is sound. That state is the model's choice, no rule of the spec (R34, D10): log 1, with log 2
for the vector registers above bit 127 and log 7 for empty memory. -/
def Obligations.ResetStateIsSound : Prop := Inv State.reset

/-! ## Exceptions -/

/-- R53 (log 15 for the refused case): a memory operand of F-SSE whose address is not a multiple of 16 ends
the instruction with #GP(0) and no change, and a segment base that is not a multiple of 16 is refused. -/
def Obligations.SseMisalignedOperandFaults : Prop :=
  ∀ (pre : List Prefix) (reg : BitVec 3) (m : Mem) (s : State),
    Ready .sse (Instr.pmulhrswXmm pre reg (.mem m)).len s →
    ((s.segBase (segmentOf s.mode pre (effectiveRex pre).b m)).toNat % 16 = 0 →
      s.operandAddress (s.access .sse pre (effectiveRex pre).x (effectiveRex pre).b
        (Instr.pmulhrswXmm pre reg (.mem m)).len m) % 16 ≠ 0 →
      exec (.pmulhrswXmm pre reg (.mem m)) s = .fault .generalProtection) ∧
    ((s.segBase (segmentOf s.mode pre (effectiveRex pre).b m)).toNat % 16 ≠ 0 →
      exec (.pmulhrswXmm pre reg (.mem m)) s = .refused .unalignedSegmentBase)

/-- R93 with R2 and D2: an instruction whose CPUID feature flags are not all reported, or whose vector
length exceeds `MAXVL`, raises #UD in 64-bit and 32-bit mode. -/
def Obligations.MissingFeatureIsInvalidOpcode : Prop :=
  ∀ (i : Instr) (s : State), s.mode = .bits64 ∨ s.mode = .prot32 →
    s.pc.toNat + i.len < (if s.mode = .bits64 then 2 ^ 64 else 2 ^ 32) →
    (match i with
      | .pmulhrswMm .. | .pmulhrswXmm .. => s.config.features.ssse3 = false
      | .vpmulhrswVex128 .. => s.config.features.avx = false
      | .vpmulhrswVex256 .. => s.config.features.avx2 = false ∨ s.config.maxvl = .w128
      | .vpmulhrswEvex128 .. => s.config.features.avx512vl = false ∨ s.config.features.avx512bw = false
      | .vpmulhrswEvex256 .. =>
        s.config.features.avx512vl = false ∨ s.config.features.avx512bw = false ∨ s.config.maxvl = .w128
      | .vpmulhrswEvex512 .. => s.config.features.avx512bw = false ∨ s.config.maxvl ≠ .w512) →
    exec i s = .fault .invalidOpcode

/-- R31, R154 to R156: a false #UD conjunct of OSENABLED (CR0.EM for the legacy forms, CR4.OSFXSR for F-SSE,
CR4.OSXSAVE and XCR0[2:1] for VEX and EVEX, XCR0[7:5] for EVEX) raises #UD, whatever else holds. -/
def Obligations.DisabledStateIsInvalidOpcode : Prop :=
  ∀ (i : Instr) (s : State), s.mode = .bits64 ∨ s.mode = .prot32 →
    s.pc.toNat + i.len < (if s.mode = .bits64 then 2 ^ 64 else 2 ^ 32) →
    (match i with
      | .pmulhrswMm .. => s.cr0.getLsbD 2 = true
      | .pmulhrswXmm .. => s.cr0.getLsbD 2 = true ∨ s.cr4.getLsbD 9 = false
      | .vpmulhrswVex128 .. | .vpmulhrswVex256 .. =>
        s.cr4.getLsbD 18 = false ∨ s.xcr0.getLsbD 1 = false ∨ s.xcr0.getLsbD 2 = false
      | .vpmulhrswEvex128 .. | .vpmulhrswEvex256 .. | .vpmulhrswEvex512 .. =>
        s.cr4.getLsbD 18 = false ∨ s.xcr0.getLsbD 1 = false ∨ s.xcr0.getLsbD 2 = false ∨
        s.xcr0.getLsbD 5 = false ∨ s.xcr0.getLsbD 6 = false ∨ s.xcr0.getLsbD 7 = false) →
    exec i s = .fault .invalidOpcode

/-- R159 steps 3 and 4, R154: from a state that is ready but for CR0.TS every instruction raises #NM; from one
that is ready but for a pending x87 exception (the model's x87 state: log 13) F-MMX raises #MF, and every other
form is not touched by it: where it completes it completes the same with one, and no other form raises #MF in any
state. -/
def Obligations.TaskSwitchedAndPendingX87Fault : Prop :=
  ∀ s : State,
    (∀ pre reg rm, Ready .mmx (Instr.pmulhrswMm pre reg rm).len s →
      exec (.pmulhrswMm pre reg rm) { s with cr0 := s.cr0 ||| 8 } = .fault .deviceNotAvailable ∧
      exec (.pmulhrswMm pre reg rm) { s with fpuPending := true } = .fault .x87FloatingPoint ∧
      exec (.pmulhrswMm pre reg rm) { s with cr0 := s.cr0 ||| 8, fpuPending := true }
        = .fault .deviceNotAvailable) ∧
    (∀ pre reg rm, Ready .sse (Instr.pmulhrswXmm pre reg rm).len s →
      exec (.pmulhrswXmm pre reg rm) { s with cr0 := s.cr0 ||| 8 } = .fault .deviceNotAvailable) ∧
    (∀ pre v reg rm, Ready .vex128 (Instr.vpmulhrswVex128 pre v reg rm).len s →
      exec (.vpmulhrswVex128 pre v reg rm) { s with cr0 := s.cr0 ||| 8 } = .fault .deviceNotAvailable) ∧
    (∀ pre v reg rm, Ready .vex256 (Instr.vpmulhrswVex256 pre v reg rm).len s →
      exec (.vpmulhrswVex256 pre v reg rm) { s with cr0 := s.cr0 ||| 8 } = .fault .deviceNotAvailable) ∧
    (∀ pre e reg rm, Ready .evex128 (Instr.vpmulhrswEvex128 pre e reg rm).len s →
      exec (.vpmulhrswEvex128 pre e reg rm) { s with cr0 := s.cr0 ||| 8 } = .fault .deviceNotAvailable) ∧
    (∀ pre e reg rm, Ready .evex256 (Instr.vpmulhrswEvex256 pre e reg rm).len s →
      exec (.vpmulhrswEvex256 pre e reg rm) { s with cr0 := s.cr0 ||| 8 } = .fault .deviceNotAvailable) ∧
    (∀ pre e reg rm, Ready .evex512 (Instr.vpmulhrswEvex512 pre e reg rm).len s →
      exec (.vpmulhrswEvex512 pre e reg rm) { s with cr0 := s.cr0 ||| 8 } = .fault .deviceNotAvailable) ∧
    (∀ i t, (∀ pre reg rm, i ≠ .pmulhrswMm pre reg rm) → exec i s = .next t →
      exec i { s with fpuPending := true } = .next { t with fpuPending := true }) ∧
    (∀ i, (∀ pre reg rm, i ≠ .pmulhrswMm pre reg rm) → exec i s ≠ .fault .x87FloatingPoint)

/-- R161 and D5 (log 4): in real-address and virtual-8086 mode the VEX and EVEX forms raise #UD where the
configuration asks for those modes, and where it does not, every step in a mode other than 64-bit and 32-bit
mode is refused. -/
def Obligations.OtherModesRefuseOrRaiseInvalidOpcode : Prop :=
  (∀ (i : Instr) (s : State), s.mode = .real ∨ s.mode = .v86 → s.config.otherModes = true →
    s.pc.toNat + i.len < 2 ^ 32 → (∀ pre reg rm, i ≠ .pmulhrswMm pre reg rm) →
    (∀ pre reg rm, i ≠ .pmulhrswXmm pre reg rm) → exec i s = .fault .invalidOpcode) ∧
  (∀ s : State, s.mode = .real ∨ s.mode = .v86 ∨ s.mode = .prot16 → s.config.otherModes = false →
    step s = .refused .modeOutsideModel ∧ ∀ i, exec i s = .refused .modeOutsideModel)

/-- R57, R157, R159 step 6, D7: a memory operand whose address is a multiple of what the form asks for (and, with
alignment checking on, of its size), whose checked bytes are readable or page-faulting and one of which page-faults,
raises #PF for the lowest such byte, with its linear address and an error code that says P, RSVD and PK as
translation does, W/R = 0, I/D = 0, and U/S = 1 exactly at privilege level 3. Stated of the operand read, whose stop
every memory form answers (MemoryFormsAnswerTheStopOfTheirOperand). -/
def Obligations.PageFaultIsForTheLowestCheckedByte : Prop :=
  ∀ (s : State) (f : Form) (lanes : Nat → Bool) (a : Access) (i : Nat) (info : PageInfo),
    (s.alignmentChecking = true → s.operandAddress a % Form.bytes f = 0) →
    (s.segBase a.seg).toNat % Form.baseAlignment f s.config = 0 →
    s.operandAddress a % Form.alignment f s.config = 0 →
    (∀ k ∈ s.checkedBytes f lanes, s.answerAt a k = .readable ∨ ∃ p, s.answerAt a k = .pf p) →
    i ∈ s.checkedBytes f lanes → s.answerAt a i = .pf info →
    (∀ k ∈ s.checkedBytes f lanes, k < i → s.answerAt a k = .readable) →
    ∃ code : BitVec 32,
      s.readOperand f lanes a =
        .error (.fault (.pageFault code (BitVec.ofNat 64 (s.operandAddress a + i)))) ∧
      code.getLsbD 0 = info.p ∧ code.getLsbD 1 = false ∧ code.getLsbD 2 = decide (s.cpl = 3) ∧
      code.getLsbD 3 = info.rsvd ∧ code.getLsbD 4 = false ∧ code.getLsbD 5 = info.pk ∧
      ∀ n, 6 ≤ n → code.getLsbD n = false

/-- R57, R159 step 6 (the number of implemented bits is log 10): in 64-bit mode, a memory operand one of whose
checked bytes has a non-canonical address raises #SS(0) through SS and #GP(0) through another segment, also where
other checked bytes page-fault. Stated of the operand read, whose stop every memory form answers
(MemoryFormsAnswerTheStopOfTheirOperand). -/
def Obligations.NonCanonicalOperandFaults : Prop :=
  ∀ (s : State) (f : Form) (lanes : Nat → Bool) (a : Access) (i : Nat),
    s.mode = .bits64 → (s.segBase a.seg).toNat % Form.baseAlignment f s.config = 0 →
    s.operandAddress a % Form.alignment f s.config = 0 →
    (∀ k ∈ s.checkedBytes f lanes, s.operandAddress a + k < 2 ^ 64 ∧
      (lookupRegion s.regions .read (s.operandAddress a + k) = .readable ∨
        ∃ p, lookupRegion s.regions .read (s.operandAddress a + k) = .pf p)) →
    i ∈ s.checkedBytes f lanes → 2 ^ (s.config.linearBits - 1) ≤ s.operandAddress a + i →
    s.operandAddress a + i < 2 ^ 64 - 2 ^ (s.config.linearBits - 1) →
    s.readOperand f lanes a = .error (.fault (if a.seg = .ss then .stackSegment else .generalProtection))

/-- R54, R154, R159 step 6, U20 (log 14): with alignment checking on (CR0.AM, EFLAGS.AC, privilege level 3), an
operand whose address is not a multiple of its size, and whose checked bytes are readable or page-faulting, is
#AC(0) in F-MMX, before any #PF, and refused in a VEX or EVEX form. That the linear address is the one tested, and
an EVEX operand whatever its mask, is the model's choice (log 14). Stated of the operand read, whose stop every
memory form answers (MemoryFormsAnswerTheStopOfTheirOperand). -/
def Obligations.AlignmentCheckOfUnalignedOperands : Prop :=
  ∀ (s : State) (f : Form) (lanes : Nat → Bool) (a : Access),
    s.cr0.getLsbD 18 = true → s.rflags.getLsbD 18 = true → s.cpl = 3 →
    (s.segBase a.seg).toNat % Form.baseAlignment f s.config = 0 →
    s.operandAddress a % Form.alignment f s.config = 0 →
    s.operandAddress a % Form.bytes f ≠ 0 →
    (∀ k ∈ s.checkedBytes f lanes, s.answerAt a k = .readable ∨ ∃ p, s.answerAt a k = .pf p) →
    s.readOperand f lanes a =
      .error (if f = .mmx ∨ f = .sse then .fault .alignmentCheck else .refused .alignmentCheckOpen)

/-- R157: the vector numbers of the exceptions, and which carry an error code; R152: no step raises
#DE (0), #OF (4), #BR (5) or #XM (19). -/
def Obligations.ExceptionVectors : Prop :=
  Fault.vector .invalidOpcode = 6 ∧ Fault.vector .deviceNotAvailable = 7 ∧
  Fault.vector .stackSegment = 12 ∧ Fault.vector .generalProtection = 13 ∧
  (∀ c a, Fault.vector (.pageFault c a) = 14 ∧ Fault.errorCode (.pageFault c a) = some c) ∧
  Fault.vector .x87FloatingPoint = 16 ∧ Fault.vector .alignmentCheck = 17 ∧
  Fault.errorCode .invalidOpcode = none ∧ Fault.errorCode .deviceNotAvailable = none ∧
  Fault.errorCode .stackSegment = some 0 ∧ Fault.errorCode .generalProtection = some 0 ∧
  Fault.errorCode .x87FloatingPoint = none ∧ Fault.errorCode .alignmentCheck = some 0 ∧
  ∀ s f, step s = .fault f → f.vector ≠ 0 ∧ f.vector ≠ 4 ∧ f.vector ≠ 5 ∧ f.vector ≠ 19

/-! ## Masking and independence -/

/-- R59: with fault suppression on, a memory form of any of the three EVEX forms under a writemask whose bits
KL-1:0 are all zero checks nothing, so that it completes whatever translation answers (alignment checking and
ALIGN_CHECK_NONLEGACY off: log 14, log 28), and every lane below VL is kept or zeroed; the bits above VL become
0. -/
def Obligations.ZeroMaskNeverFaultsOnMemory : Prop :=
  ∀ (pre : List Prefix) (e : Evex) (reg : BitVec 3) (m : Mem) (s : State),
    s.config.faultSuppression = true → s.config.alignCheckNonLegacy = false →
    s.alignmentChecking = false → e.aaa ≠ 0 →
    (Ready .evex128 (Instr.vpmulhrswEvex128 pre e reg (.mem m)).len s → (s.opmask e.aaa).setWidth 8 = 0#8 →
      ∃ t, exec (.vpmulhrswEvex128 pre e reg (.mem m)) s = .next t ∧
        t.v (num5 e.rr e.r reg) =
          if e.z = true then 0 else ((s.v (num5 e.rr e.r reg)).setWidth 128).setWidth 512) ∧
    (Ready .evex256 (Instr.vpmulhrswEvex256 pre e reg (.mem m)).len s → (s.opmask e.aaa).setWidth 16 = 0#16 →
      ∃ t, exec (.vpmulhrswEvex256 pre e reg (.mem m)) s = .next t ∧
        t.v (num5 e.rr e.r reg) =
          if e.z = true then 0 else ((s.v (num5 e.rr e.r reg)).setWidth 256).setWidth 512) ∧
    (Ready .evex512 (Instr.vpmulhrswEvex512 pre e reg (.mem m)).len s → (s.opmask e.aaa).setWidth 32 = 0#32 →
      ∃ t, exec (.vpmulhrswEvex512 pre e reg (.mem m)) s = .next t ∧
        t.v (num5 e.rr e.r reg) = if e.z = true then 0 else s.v (num5 e.rr e.r reg))

/-- R59, R140: the bytes of a masked-off lane are never used. Changing memory at any address that belongs to
no selected lane of the operand changes nothing in the outcome but that memory itself; stated of the value
the read gives. -/
def Obligations.MaskedOffBytesAreNeverUsed : Prop :=
  ∀ (s : State) (mem : List Host.Cell) (f : Form) (lanes : Nat → Bool) (a : Access),
    (∀ i < Form.bytes f, lanes (i / 2) = true →
      Memory.read mem (s.operandAddress a + i) = Memory.read s.mem (s.operandAddress a + i)) →
    State.readOperand { s with mem := mem } f lanes a = s.readOperand f lanes a

/-- R25, R144: the EVEX forms look at bits KL-1:0 of K[aaa] only (KL = 8, 16, 32), at no other opmask register,
and with aaa = 0 at none: with any other opmask file that agrees on those bits, the same value is written. -/
def Obligations.OnlyTheMaskBitsOfTheLanesMatter : Prop :=
  ∀ (e : Evex) (pre : List Prefix) (reg : BitVec 3) (rm : RM) (s t : State) (k : Vector (BitVec 64) 8),
    ((e.aaa ≠ 0 → ∀ j < 8, (k[e.aaa.toNat]'e.aaa.isLt).getLsbD j = (s.opmask e.aaa).getLsbD j) →
      exec (.vpmulhrswEvex128 pre e reg rm) s = .next t →
      exec (.vpmulhrswEvex128 pre e reg rm) { s with k := k } = .next { t with k := k }) ∧
    ((e.aaa ≠ 0 → ∀ j < 16, (k[e.aaa.toNat]'e.aaa.isLt).getLsbD j = (s.opmask e.aaa).getLsbD j) →
      exec (.vpmulhrswEvex256 pre e reg rm) s = .next t →
      exec (.vpmulhrswEvex256 pre e reg rm) { s with k := k } = .next { t with k := k }) ∧
    ((e.aaa ≠ 0 → ∀ j < 32, (k[e.aaa.toNat]'e.aaa.isLt).getLsbD j = (s.opmask e.aaa).getLsbD j) →
      exec (.vpmulhrswEvex512 pre e reg rm) s = .next t →
      exec (.vpmulhrswEvex512 pre e reg rm) { s with k := k } = .next { t with k := k })

/-- R130 corner case (b): the old value of the destination of a VEX form is not read, unless it is also a
source. -/
def Obligations.VexDestinationIsNotRead : Prop :=
  ∀ (pre : List Prefix) (v : Vex) (reg : BitVec 3) (rm : RM) (s : State) (old : VReg),
    v.vvvv.setWidth 5 ≠ num5 false v.r reg → (∀ r, rm = .reg r → num5 false v.b r ≠ num5 false v.r reg) →
    exec (.vpmulhrswVex128 pre v reg rm) (s.writeV (num5 false v.r reg) old)
      = exec (.vpmulhrswVex128 pre v reg rm) s ∧
    exec (.vpmulhrswVex256 pre v reg rm) (s.writeV (num5 false v.r reg) old)
      = exec (.vpmulhrswVex256 pre v reg rm) s

/-- R146: with aaa = 0 and register numbers below 16, F-EVEX128 writes the same value to V[d] as F-VEX128 with
the same operands (the last one a register, or the same memory operand), and F-EVEX256 the same as F-VEX256. -/
def Obligations.EvexWithoutMaskEqualsVex : Prop :=
  ∀ (pre pre' : List Prefix) (v : Vex) (e : Evex) (reg : BitVec 3) (rm rm' : RM) (s t u : State),
    e.aaa = 0 → e.rr = false → e.vv = false → e.r = v.r → e.vvvv = v.vvvv →
    ((((∃ r r', rm = .reg r ∧ rm' = .reg r' ∧ num5 e.x e.b r' = num5 false v.b r) ∨
        ∃ m m', rm = .mem m ∧ rm' = .mem m' ∧
          s.access .vex128 pre v.x v.b (Instr.vpmulhrswVex128 pre v reg rm).len m
            = s.access .evex128 pre' e.x e.b (Instr.vpmulhrswEvex128 pre' e reg rm').len m') →
      exec (.vpmulhrswVex128 pre v reg rm) s = .next t →
      exec (.vpmulhrswEvex128 pre' e reg rm') s = .next u → t.vec = u.vec) ∧
     (((∃ r r', rm = .reg r ∧ rm' = .reg r' ∧ num5 e.x e.b r' = num5 false v.b r) ∨
        ∃ m m', rm = .mem m ∧ rm' = .mem m' ∧
          s.access .vex256 pre v.x v.b (Instr.vpmulhrswVex256 pre v reg rm).len m
            = s.access .evex256 pre' e.x e.b (Instr.vpmulhrswEvex256 pre' e reg rm').len m') →
      exec (.vpmulhrswVex256 pre v reg rm) s = .next t →
      exec (.vpmulhrswEvex256 pre' e reg rm') s = .next u → t.vec = u.vec))

/-! ## Addresses -/

/-- R82: disp8 is sign-extended and multiplied by 16, 32 and 64 in the three EVEX forms, and not scaled in the
legacy and VEX forms. -/
def Obligations.Disp8IsScaledInEvexFormsOnly : Prop :=
  ∀ (s : State) (pre : List Prefix) (xb bb : Bool) (len : Nat) (rm : BitVec 3) (v : BitVec 8),
    s.mode = .bits64 → hasAddrSize pre = false →
    (∀ f : Form, f = .mmx ∨ f = .sse ∨ f = .vex128 ∨ f = .vex256 →
      (s.access f pre xb bb len (.base rm (.d8 v))).ea = s.x (num4 bb rm) + v.signExtend 64) ∧
    (s.access .evex128 pre xb bb len (.base rm (.d8 v))).ea = s.x (num4 bb rm) + v.signExtend 64 * 16 ∧
    (s.access .evex256 pre xb bb len (.base rm (.d8 v))).ea = s.x (num4 bb rm) + v.signExtend 64 * 32 ∧
    (s.access .evex512 pre xb bb len (.base rm (.d8 v))).ea = s.x (num4 bb rm) + v.signExtend 64 * 64

/-- R83, with R80 for the truncation and for disp32 alone: RIP-relative addressing exists only in 64-bit mode,
where the effective address is `pc + len`, the address of the next instruction, plus the sign-extended disp32,
truncated to 32 bits under prefix 67; outside 64-bit mode the same bytes name disp32 alone. That 16-bit code
takes 32-bit addressing under prefix 67 is the model's choice (log 23, PRESUMED). -/
def Obligations.RipRelativeAddress : Prop :=
  ∀ (s : State) (f : Form) (pre : List Prefix) (xb bb : Bool) (len : Nat) (v : BitVec 32),
    (s.mode = .bits64 → hasAddrSize pre = false →
      (s.access f pre xb bb len (.disp32 v)).ea = s.pc + BitVec.ofNat 64 len + v.signExtend 64) ∧
    (s.mode = .bits64 → hasAddrSize pre = true →
      (s.access f pre xb bb len (.disp32 v)).ea
        = ((s.pc + BitVec.ofNat 64 len + v.signExtend 64).setWidth 32).setWidth 64) ∧
    (s.mode ≠ .bits64 → addr16 s.mode pre = false →
      (s.access f pre xb bb len (.disp32 v)).ea = v.setWidth 64)

/-- R81, R84: the SIB sum with its two absent cases, the segment chosen without an override, and the segment
bases of 64-bit mode. -/
def Obligations.SibAndSegmentRules : Prop :=
  ∀ (s : State) (f : Form) (xb bb : Bool) (len : Nat) (scale : BitVec 2) (index b : BitVec 3) (v : BitVec 32),
    s.mode = .bits64 →
    ((s.access f [] xb bb len (.sib scale index b .none)).ea
      = s.x (num4 bb b)
        + if xb = false ∧ index = 4 then 0 else s.x (num4 xb index) * BitVec.ofNat 64 (2 ^ scale.toNat)) ∧
    ((s.access f [] xb bb len (.sibDisp32 scale index v)).ea
      = (if xb = false ∧ index = 4 then 0 else s.x (num4 xb index) * BitVec.ofNat 64 (2 ^ scale.toNat))
        + v.signExtend 64) ∧
    ((s.access f [] xb bb len (.sib scale index b .none)).seg
      = if bb = false ∧ (b = 4 ∨ b = 5) then .ss else .ds) ∧
    (s.access f [.seg .fs] xb bb len (.sib scale index b .none)).seg = .fs ∧
    s.segBase .es = 0 ∧ s.segBase .cs = 0 ∧ s.segBase .ss = 0 ∧ s.segBase .ds = 0 ∧
    s.segBase .fs = (s.seg[4]).base ∧ s.segBase .gs = (s.seg[5]).base

/-- R84: 16-bit addressing, as prefix 67 chooses it in 32-bit mode: the eight sums of the table, truncated to 16
bits, with a sign-extended disp8 (scaled by VL/8 in the EVEX forms, R82) or a disp16, and the segment each takes
without an override. -/
def Obligations.SixteenBitAddresses : Prop :=
  ∀ (s : State) (f : Form) (xb bb : Bool) (len : Nat) (d : Disp16) (v : BitVec 16), s.mode = .prot32 →
    (∀ (rm : BitVec 3) (sum : Word) (g : Seg),
      (rm, sum, g) ∈ [(0, s.x 3 + s.x 6, Seg.ds), (1, s.x 3 + s.x 7, Seg.ds), (2, s.x 5 + s.x 6, Seg.ss),
        (3, s.x 5 + s.x 7, Seg.ss), (4, s.x 6, Seg.ds), (5, s.x 7, Seg.ds), (6, s.x 5, Seg.ss),
        (7, s.x 3, Seg.ds)] →
      s.access f [.addrSize] xb bb len (.base16 rm d) = ⟨g, ((sum + match d with
        | .none => 0
        | .d8 b => b.signExtend 64 * (match f with
          | .mmx | .sse | .vex128 | .vex256 => 1
          | .evex128 => 16
          | .evex256 => 32
          | .evex512 => 64)
        | .d16 w => w.setWidth 64).setWidth 16).setWidth 64⟩) ∧
    s.access f [.addrSize] xb bb len (.disp16 v) = ⟨.ds, v.setWidth 64⟩

/-! ## Encoding -/

/-- R24, R75, R77, R86, D3, D5: outside 64-bit mode a well-formed instruction names registers 0 to 7 only: its
destination, its first source and its last source. -/
def Obligations.OnlyRegistersBelow8OutsideBits64 : Prop :=
  ∀ (m : Mode) (pre : List Prefix) (reg : BitVec 3) (rm : RM) (v : Vex) (e : Evex) (r : BitVec 3), m ≠ .bits64 →
    ((Instr.pmulhrswXmm pre reg rm).wf m = true →
      num5 false (effectiveRex pre).r reg < 8 ∧ num5 false (effectiveRex pre).b r < 8) ∧
    ((Instr.vpmulhrswVex128 pre v reg rm).wf m = true ∨ (Instr.vpmulhrswVex256 pre v reg rm).wf m = true →
      num5 false v.r reg < 8 ∧ Vex.source1 v < 8 ∧ num5 false v.b r < 8) ∧
    ((Instr.vpmulhrswEvex128 pre e reg rm).wf m = true ∨ (Instr.vpmulhrswEvex256 pre e reg rm).wf m = true ∨
        (Instr.vpmulhrswEvex512 pre e reg rm).wf m = true →
      num5 e.rr e.r reg < 8 ∧ Evex.source1 e < 8 ∧ num5 e.x e.b r < 8)

/-- Decoding the encoding of a well-formed instruction, in its mode, with any bytes after it, gives the
instruction and those bytes back: every operand, prefix and ignored bit at every value the encoding admits
(30_encoding.md R70 to R89). -/
def Obligations.DecodeOfEncodeIsTheInstruction : Prop :=
  ∀ (m : Mode) (i : Instr) (rest : List Byte), i.wf m = true → decode m (encode i ++ rest) = .ok (i, rest)

/-- Every answer of the decoder is a well-formed instruction, and the bytes decoded are its encoding and what
follows: no byte sequence has two meanings and none that the encoder does not write is accepted (30_encoding.md
R94). -/
def Obligations.EncodeOfDecodeIsTheBytes : Prop :=
  ∀ (m : Mode) (bs rest : List Byte) (i : Instr), decode m bs = .ok (i, rest) →
    i.wf m = true ∧ encode i ++ rest = bs

/-- R90: a LOCK, F2 or F3 prefix before 0F 38 0B makes a legacy encoding of at most 15 bytes #UD, with or
without prefix 66, in every mode: the decoder says so, and a step that fetches those bytes raises #UD (in the modes
D5 refuses, where the configuration asks for them: log 4). That it is #UD also where `pc + len` reaches the top of the
address space, a placement R28 and D8 refuse, is the model's choice (log 30, DESIGN CHOICE). -/
def Obligations.ReservedLegacyPrefixIsInvalid : Prop :=
  ∀ (m : Mode) (pre : List Prefix) (reg : BitVec 3) (rm : RM) (rest : List Byte),
    (∀ r, .rex r ∈ pre → m = .bits64) → rm.wf (addr16 m pre) = true →
    pre.length + 4 + rm.size ≤ 15 → (.lock ∈ pre ∨ .repne ∈ pre ∨ .rep ∈ pre) →
    decode m (pre.map Prefix.toByte ++ [0x0F, 0x38, 0x0B] ++ encodeModRM reg rm ++ rest) = .error .invalid ∧
    ∀ s : State, s.mode = m → m = .bits64 ∨ m = .prot32 ∨ s.config.otherModes = true →
      s.fetchWindow.1 = pre.map Prefix.toByte ++ [0x0F, 0x38, 0x0B] ++ encodeModRM reg rm ++ rest →
      step s = .fault .invalidOpcode

/-- R91, R92: a LOCK, 66, F2, F3 or REX prefix before a VEX or EVEX prefix makes an encoding of at most 15 bytes
#UD, in every mode (outside 64-bit mode REX is no prefix, and R = X = 0 is what makes the bytes a VEX or EVEX
prefix, R75, R77): the decoder says so, and a step that fetches those bytes raises #UD (in the modes D5 refuses,
where the configuration asks for them: log 4). Three cases are the model's choice: #UD also where `pc + len` reaches
the top of the address space, a placement R28 and D8 refuse (log 30, DESIGN CHOICE); outside 64-bit mode, #UD also where
B, vvvv[3], R' or V' is set, which R75, R77 and D5 say a model refuses (log 21, DESIGN CHOICE); and a REX byte that
another prefix follows, which R74 calls ignored, still makes #UD (log 26, DEDUCED). -/
def Obligations.ReservedPrefixBeforeVexOrEvexIsInvalid : Prop :=
  ∀ (m : Mode) (pre : List Prefix) (v : Vex) (e : Evex) (l : BitVec 1) (ll : BitVec 2) (reg : BitVec 3) (rm : RM)
    (rest : List Byte),
    (∀ r, .rex r ∈ pre → m = .bits64) → rm.wf (addr16 m pre) = true →
    (.lock ∈ pre ∨ .opSize ∈ pre ∨ .repne ∈ pre ∨ .rep ∈ pre ∨ ∃ r, .rex r ∈ pre) →
    (m = .bits64 ∨ (v.r = false ∧ v.x = false) → pre.length + 5 + rm.size ≤ 15 →
      decode m (encodeVex l pre v reg rm ++ rest) = .error .invalid ∧
      ∀ s : State, s.mode = m → m = .bits64 ∨ m = .prot32 ∨ s.config.otherModes = true →
        s.fetchWindow.1 = encodeVex l pre v reg rm ++ rest → step s = .fault .invalidOpcode) ∧
    (m = .bits64 ∨ (e.r = false ∧ e.x = false) → pre.length + 6 + rm.size ≤ 15 →
      decode m (encodeEvex ll pre e reg rm ++ rest) = .error .invalid ∧
      ∀ s : State, s.mode = m → m = .bits64 ∨ m = .prot32 ∨ s.config.otherModes = true →
        s.fetchWindow.1 = encodeEvex ll pre e reg rm ++ rest → step s = .fault .invalidOpcode)

/-- R92: with the map 0F 38, pp = 66 and opcode 0B, P0 bits 3:2 not 00, P1 bit 2 not 1, L'L = 11, b = 1, or z = 1
with aaa = 000 make an EVEX encoding of at most 15 bytes #UD, after any prefixes and in every mode (outside 64-bit
mode P0 bits 7:6 = 11 is what makes the bytes an EVEX prefix, R77): the decoder says so, and a step that fetches
those bytes raises #UD (in the modes D5 refuses, where the configuration asks for them: log 4). Outside 64-bit mode,
that it is #UD also where B, R', vvvv[3] or V' is set, which R77 and D5 say a model refuses, is the model's choice
(log 21, DESIGN CHOICE), and so is #UD where `pc + len` reaches the top of the address space, a placement R28 and D8
refuse (log 30, DESIGN CHOICE). -/
def Obligations.ReservedEvexPatternsAreInvalid : Prop :=
  ∀ (m : Mode) (pre : List Prefix) (p0 p1 p2 : Byte) (reg : BitVec 3) (rm : RM) (rest : List Byte),
    (∀ r, .rex r ∈ pre → m = .bits64) → rm.wf (addr16 m pre) = true →
    pre.length + 6 + rm.size ≤ 15 → m = .bits64 ∨ p0.extractLsb' 6 2 = 0b11#2 →
    p0.extractLsb' 0 2 = 0b10#2 → p1.extractLsb' 0 2 = 0b01#2 →
    (p0.getLsbD 2 = true ∨ p0.getLsbD 3 = true ∨ p1.getLsbD 2 = false ∨
      (p2.getLsbD 5 = true ∧ p2.getLsbD 6 = true) ∨ p2.getLsbD 4 = true ∨
      (p2.getLsbD 7 = true ∧ p2.extractLsb' 0 3 = 0)) →
    decode m (pre.map Prefix.toByte ++ [0x62, p0, p1, p2, 0x0B] ++ encodeModRM reg rm ++ rest)
      = .error .invalid ∧
    ∀ s : State, s.mode = m → m = .bits64 ∨ m = .prot32 ∨ s.config.otherModes = true →
      s.fetchWindow.1 = pre.map Prefix.toByte ++ [0x62, p0, p1, p2, 0x0B] ++ encodeModRM reg rm ++ rest →
      step s = .fault .invalidOpcode

/-- R72: an instruction longer than 15 bytes, in any of the three shapes, with any prefixes and in every mode, whose
first 15 bytes are fetched, raises #GP(0), before any #UD (R159 step 2). Outside 64-bit mode REX is no prefix, and
R = X = 0 is what makes the bytes a VEX or EVEX prefix (R75, R77); the modes D5 refuses count where the configuration
asks for them (log 4). Outside 64-bit mode, that it is #GP(0) also where B, R', vvvv[3] or V' is set, which R75, R77
and D5 say a model refuses, is the model's choice: R159 orders faults, not refusals (log 21, DESIGN CHOICE). So is
#GP(0) where `pc + len` reaches the top of the address space, a placement R28 and D8 refuse (log 30, DESIGN CHOICE). -/
def Obligations.OverlongInstructionIsGeneralProtection : Prop :=
  ∀ (s : State) (pre : List Prefix) (v : Vex) (l : BitVec 1) (e : Evex) (ll : BitVec 2) (reg : BitVec 3) (rm : RM)
    (bytes : List Byte),
    s.mode = .bits64 ∨ s.mode = .prot32 ∨ s.config.otherModes = true →
    (∀ r, .rex r ∈ pre → s.mode = .bits64) → rm.wf (addr16 s.mode pre) = true →
    (bytes = encodeLegacy pre reg rm ∨
      (bytes = encodeVex l pre v reg rm ∧ (s.mode = .bits64 ∨ (v.r = false ∧ v.x = false))) ∨
      (bytes = encodeEvex ll pre e reg rm ∧ (s.mode = .bits64 ∨ (e.r = false ∧ e.x = false)))) →
    15 < bytes.length → s.fetchWindow = (bytes.take 15, .limit) → step s = .fault .generalProtection

/-- Words of 30_encoding.md R76, R78, R82 and 95_test_vectors.md section 3 decode to the instructions they
stand for. -/
def Obligations.DecodingOfTheSpecsWords : Prop :=
  decode .bits64 [0x0F, 0x38, 0x0B, 0xC1] = .ok (.pmulhrswMm [] 0 (.reg 1), []) ∧
  decode .bits64 [0x66, 0x45, 0x0F, 0x38, 0x0B, 0xC1]
    = .ok (.pmulhrswXmm [.opSize, .rex ⟨false, true, false, true⟩] 0 (.reg 1), []) ∧
  decode .bits64 [0xC4, 0xE2, 0x71, 0x0B, 0xC2]
    = .ok (.vpmulhrswVex128 [] ⟨false, false, false, false, 1⟩ 0 (.reg 2), []) ∧
  decode .bits64 [0xC4, 0x42, 0x05, 0x0B, 0xC1]
    = .ok (.vpmulhrswVex256 [] ⟨true, false, true, false, 15⟩ 0 (.reg 1), []) ∧
  decode .bits64 [0x62, 0x02, 0x0D, 0x40, 0x0B, 0xFD]
    = .ok (.vpmulhrswEvex512 [] ⟨true, true, true, true, false, 0b1110, false, true, 0⟩ 7 (.reg 5), []) ∧
  decode .bits64 [0x62, 0xF2, 0x5D, 0x4F, 0x0B, 0x58, 0x01]
    = .ok (.vpmulhrswEvex512 [] ⟨false, false, false, false, false, 4, false, false, 7⟩ 3
        (.mem (.base 0 (.d8 1))), [])

/-! ## Steps and reset -/

/-- A step runs the decoded instruction: when the bytes at `pc` decode to an instruction, the step is that
instruction's execution in the same state, and nothing is added around it (00_scope.md R12). -/
def Obligations.StepRunsTheDecodedInstruction : Prop :=
  ∀ (s : State) (i : Instr) (rest : List Byte),
    s.mode = .bits64 ∨ s.mode = .prot32 ∨ s.config.otherModes = true →
    decode s.mode s.fetchWindow.1 = .ok (i, rest) → step s = exec i s

/-- R12, R27, R32: when memory holds the encoding of a well-formed instruction at the linear address of
`pc`, and those bytes (no others) can be fetched, the step is that instruction's execution. -/
def Obligations.StepRunsTheInstructionInMemory : Prop :=
  ∀ (s : State) (i : Instr),
    s.mode = .bits64 ∨ s.mode = .prot32 ∨ s.config.otherModes = true → i.wf s.mode = true →
    (∀ n (h : n < (encode i).length), s.translate .fetch .cs (s.fetchAddress + n) = .readable ∧
      Memory.read s.mem (s.fetchAddress + n) = (encode i)[n]) →
    step s = exec i s

/-- R35: the state after power-up or RESET, as far as the table gives it: the values of log 2, log 3 and
log 13 are not part of this statement. -/
def Obligations.ResetStateOfTheTable : Prop :=
  (∀ n : BitVec 3, State.reset.x87[n.toNat]'n.isLt = 0) ∧
  (∀ n : BitVec 4, (State.reset.v (n.setWidth 5)).setWidth 128 = 0#128) ∧
  State.reset.mxcsr = 0x1F80 ∧ State.reset.rflags = 2 ∧ State.reset.pc = 0xFFF0 ∧
  (State.reset.seg[1]).selector = 0xF000 ∧ (State.reset.seg[1]).base = 0xFFFF0000 ∧
  State.reset.fetchAddress = 0xFFFFFFF0 ∧ State.reset.cr0 = 0x60000010 ∧ State.reset.cr4 = 0 ∧
  State.reset.xcr0 = 1 ∧ State.reset.mode = .real ∧ State.reset.cpl = 0 ∧
  State.reset.osEnabled .mmx = true ∧ State.reset.osEnabled .sse = false ∧
  State.reset.osEnabled .vex128 = false ∧ State.reset.osEnabled .vex256 = false ∧
  State.reset.osEnabled .evex128 = false ∧ State.reset.osEnabled .evex256 = false ∧
  State.reset.osEnabled .evex512 = false

/-- R35, last paragraph: straight after reset F-MMX is ready to execute, and, whatever memory holds, a step that
completes ran an F-MMX instruction. The reset state is the model's choice: log 1 for taking R35's table, log 3 and
log 4 for the configuration, and log 13 for no pending x87 exception, which the table does not give (PRESUMED). -/
def Obligations.OnlyMmxRunsStraightAfterReset : Prop :=
  (∀ len ≤ 15, Ready .mmx len State.reset) ∧
  ∀ (mem : List Host.Cell) (t : State), step { State.reset with mem := mem } = .next t →
    ∃ pre reg rm rest,
      decode .real (State.fetchWindow { State.reset with mem := mem }).1 = .ok (.pmulhrswMm pre reg rm, rest) ∧
      exec (.pmulhrswMm pre reg rm) { State.reset with mem := mem } = .next t

/-- A word placed for the next fetch is what is fetched (log 5, log 6): from a sound state in 64-bit or 32-bit
mode whose fetch addresses are readable, the fetched bytes are the word's. -/
def Obligations.PlacedWordIsFetched : Prop :=
  ∀ (s : State) (nbits w : Nat), s.mode = .bits64 ∨ s.mode = .prot32 → Memory.wf s.mem →
    (∀ n < 15, s.translate .fetch .cs (s.fetchAddress + n) = .readable) →
    (s.withFetchWord nbits w).fetchWindow = (tableBytes nbits w, .limit) ∧
    ∀ a, a < s.fetchAddress ∨ s.fetchAddress + 15 ≤ a →
      Memory.read (s.withFetchWord nbits w).mem a = Memory.read s.mem a

/-! ## Operand addresses, segments and alignment -/

/-- R80, R81, R82: the effective address of a base register, of a SIB byte and of a SIB byte without a base, each
with no displacement, disp8 (scaled in the EVEX forms) or disp32: 64 bits wide in 64-bit mode; truncated to 32 bits
in 32-bit mode and, under prefix 67, in 64-bit mode. `X:index` = 0100 means no index. -/
def Obligations.BaseAndSibAddresses : Prop :=
  ∀ (s : State) (f : Form) (pre : List Prefix) (xb bb : Bool) (len : Nat) (scale : BitVec 2) (index b : BitVec 3)
    (d : Disp) (v : BitVec 32) (disp idx : Word),
    disp = (match d with
      | .none => 0
      | .d8 x => x.signExtend 64 * (match f with
        | .mmx | .sse | .vex128 | .vex256 => 1
        | .evex128 => 16
        | .evex256 => 32
        | .evex512 => 64)
      | .d32 x => x.signExtend 64) →
    idx = (if xb = false ∧ index = 4 then 0 else s.x (num4 xb index) * BitVec.ofNat 64 (2 ^ scale.toNat)) →
    (s.mode = .bits64 → hasAddrSize pre = false →
      (s.access f pre xb bb len (.base b d)).ea = s.x (num4 bb b) + disp ∧
      (s.access f pre xb bb len (.sib scale index b d)).ea = s.x (num4 bb b) + idx + disp ∧
      (s.access f pre xb bb len (.sibDisp32 scale index v)).ea = idx + v.signExtend 64) ∧
    ((s.mode = .bits64 ∧ hasAddrSize pre = true) ∨ (s.mode = .prot32 ∧ hasAddrSize pre = false) →
      (s.access f pre xb bb len (.base b d)).ea = ((s.x (num4 bb b) + disp).setWidth 32).setWidth 64 ∧
      (s.access f pre xb bb len (.sib scale index b d)).ea
        = ((s.x (num4 bb b) + idx + disp).setWidth 32).setWidth 64 ∧
      (s.access f pre xb bb len (.sibDisp32 scale index v)).ea
        = ((idx + v.signExtend 64).setWidth 32).setWidth 64)

/-- R60, R84, D16: the address of a memory operand is its segment's base plus its effective address, truncated to
the mode's address width: 64 bits in 64-bit mode, where the bases of ES, CS, SS and DS are taken as 0; 32 bits
outside it (log 4 for the modes D5 refuses), where every base is the register's. -/
def Obligations.OperandAddressIsSegmentBasePlusEffectiveAddress : Prop :=
  ∀ (s : State) (a : Access),
    (s.mode = .bits64 →
      s.operandAddress a = ((match a.seg with
        | .es | .cs | .ss | .ds => 0
        | .fs => (s.seg[4]).base
        | .gs => (s.seg[5]).base) + a.ea).toNat) ∧
    (s.mode ≠ .bits64 →
      s.operandAddress a = (((match a.seg with
        | .es => (s.seg[0]).base
        | .cs => (s.seg[1]).base
        | .ss => (s.seg[2]).base
        | .ds => (s.seg[3]).base
        | .fs => (s.seg[4]).base
        | .gs => (s.seg[5]).base) + a.ea).setWidth 32).toNat)

/-- R84: the segment of a memory operand is the one its override prefixes name, where they all name one; without an
override it is SS when the base register is RSP/ESP/SP or RBP/EBP/BP, else DS. Where overrides name different
segments, it is one of those named; which one is a free value (log 16, DESIGN CHOICE). -/
def Obligations.SegmentIsTheOneAnOverrideNames : Prop :=
  ∀ (s : State) (f : Form) (pre : List Prefix) (xb bb : Bool) (len : Nat) (m : Mem),
    (∀ g, .seg g ∈ pre → .seg (s.access f pre xb bb len m).seg ∈ pre) ∧
    (∀ g, .seg g ∈ pre → (∀ h, .seg h ∈ pre → h = g) → (s.access f pre xb bb len m).seg = g) ∧
    ((∀ g, .seg g ∉ pre) →
      (s.access f pre xb bb len m).seg = match m with
        | .base b _ | .sib _ _ b _ => if bb = false ∧ (b = 4 ∨ b = 5) then .ss else .ds
        | .base16 r _ => if r = 2 ∨ r = 3 ∨ r = 6 then .ss else .ds
        | .disp32 _ | .sibDisp32 .. | .disp16 _ => .ds)

/-- R5, R54, D6: with ALIGN_CHECK_NONLEGACY set, an operand of a form other than F-SSE whose address (the one passed
to `MemRead`) is not a multiple of the operand's size raises #GP(0), and a segment base that is not a multiple of 16
is refused. That an EVEX operand is tested whatever its mask is the model's choice (log 28), and so is that this
fault comes before #SS(0), #AC(0) and #PF (log 29). Stated of the operand
read, whose stop every memory form answers (MemoryFormsAnswerTheStopOfTheirOperand). -/
def Obligations.AlignCheckNonLegacyRaisesGeneralProtection : Prop :=
  ∀ (s : State) (f : Form) (lanes : Nat → Bool) (a : Access), f ≠ .sse → s.config.alignCheckNonLegacy = true →
    ((s.segBase a.seg).toNat % 16 = 0 →
      s.operandAddress a % (match f with
        | .mmx => 8
        | .sse | .vex128 | .evex128 => 16
        | .vex256 | .evex256 => 32
        | .evex512 => 64) ≠ 0 →
      s.readOperand f lanes a = .error (.fault .generalProtection)) ∧
    ((s.segBase a.seg).toNat % 16 ≠ 0 → s.readOperand f lanes a = .error (.refused .unalignedSegmentBase))

/-- R65, R159 steps 5 and 6, R154 to R156: a memory form of each of the seven instructions that is ready but for its
operand ends with the stop of the read of that operand: the fault that read raises, or its refusal, and no next
state. The EVEX forms read under the writemask that aaa selects (R140). -/
def Obligations.MemoryFormsAnswerTheStopOfTheirOperand : Prop :=
  ∀ (pre : List Prefix) (v : Vex) (e : Evex) (reg : BitVec 3) (m : Mem) (s : State) (stop : Stop) (answer : Outcome),
    answer = (match stop with
      | .fault x => .fault x
      | .refused x => .refused x) →
    (Ready .mmx (Instr.pmulhrswMm pre reg (.mem m)).len s →
      s.readOperand .mmx allLanes (s.access .mmx pre (effectiveRex pre).x (effectiveRex pre).b
        (Instr.pmulhrswMm pre reg (.mem m)).len m) = .error stop →
      exec (.pmulhrswMm pre reg (.mem m)) s = answer) ∧
    (Ready .sse (Instr.pmulhrswXmm pre reg (.mem m)).len s →
      s.readOperand .sse allLanes (s.access .sse pre (effectiveRex pre).x (effectiveRex pre).b
        (Instr.pmulhrswXmm pre reg (.mem m)).len m) = .error stop →
      exec (.pmulhrswXmm pre reg (.mem m)) s = answer) ∧
    (Ready .vex128 (Instr.vpmulhrswVex128 pre v reg (.mem m)).len s →
      s.readOperand .vex128 allLanes (s.access .vex128 pre v.x v.b
        (Instr.vpmulhrswVex128 pre v reg (.mem m)).len m) = .error stop →
      exec (.vpmulhrswVex128 pre v reg (.mem m)) s = answer) ∧
    (Ready .vex256 (Instr.vpmulhrswVex256 pre v reg (.mem m)).len s →
      s.readOperand .vex256 allLanes (s.access .vex256 pre v.x v.b
        (Instr.vpmulhrswVex256 pre v reg (.mem m)).len m) = .error stop →
      exec (.vpmulhrswVex256 pre v reg (.mem m)) s = answer) ∧
    (Ready .evex128 (Instr.vpmulhrswEvex128 pre e reg (.mem m)).len s →
      s.readOperand .evex128 (fun j => e.aaa == 0 || (s.opmask e.aaa).getLsbD j) (s.access .evex128 pre e.x e.b
        (Instr.vpmulhrswEvex128 pre e reg (.mem m)).len m) = .error stop →
      exec (.vpmulhrswEvex128 pre e reg (.mem m)) s = answer) ∧
    (Ready .evex256 (Instr.vpmulhrswEvex256 pre e reg (.mem m)).len s →
      s.readOperand .evex256 (fun j => e.aaa == 0 || (s.opmask e.aaa).getLsbD j) (s.access .evex256 pre e.x e.b
        (Instr.vpmulhrswEvex256 pre e reg (.mem m)).len m) = .error stop →
      exec (.vpmulhrswEvex256 pre e reg (.mem m)) s = answer) ∧
    (Ready .evex512 (Instr.vpmulhrswEvex512 pre e reg (.mem m)).len s →
      s.readOperand .evex512 (fun j => e.aaa == 0 || (s.opmask e.aaa).getLsbD j) (s.access .evex512 pre e.x e.b
        (Instr.vpmulhrswEvex512 pre e reg (.mem m)).len m) = .error stop →
      exec (.vpmulhrswEvex512 pre e reg (.mem m)) s = answer)
end

