-- ==== Sys2Proof/Laws/Decode.lean ====
section
/-! SUPPORT. What the decoder reads from what the encoder writes, part by part, and then for each of the
three shapes of 30_encoding.md R71 as one equation that says every answer. -/

namespace Sys2Proof

/-- A prefix's byte is that prefix. -/
theorem ofByte_toByte (m : Mode) (p : Prefix) (h : p.existsIn m = true) : Prefix.ofByte m p.toByte =
    some p := by
  cases p with
  | seg s => cases s <;> cases m <;> decide
  | rex r =>
    simp only [Prefix.existsIn, beq_iff_eq] at h; subst h
    obtain ⟨w,r,x,b⟩ := r
    revert w r x b; decide
  | _ => cases m <;> decide

/-- The scan finds the prefixes that were written, up to a byte that is none. -/
theorem scanPrefixes_append (m : Mode) (pre : List Prefix) (h : ∀ p ∈ pre, p.existsIn m = true) (b :
    Byte) (t : List Byte) (hb : Prefix.ofByte m b = none) :
  scanPrefixes m (pre.map Prefix.toByte ++ b :: t) = (pre, b :: t) := by
  induction pre with
  | nil => simp [scanPrefixes, hb]
  | cons p pre ih =>
    have := ih fun q hq => h q (List.mem_cons_of_mem _ hq)
    simp only [List.map_cons, List.cons_append, scanPrefixes, ofByte_toByte m p (h p (by simp)), this]

theorem take32_bytes32 (v : BitVec 32) (t) : take32 (bytes32 v ++ t) = some (v, t) := by
  simp only [bytes32, List.cons_append, List.nil_append, take32]
  congr 2
  apply BitVec.eq_of_getLsbD_eq
  intro i hi
  simp only [BitVec.getLsbD_append, BitVec.getLsbD_extractLsb']
  by_cases h1 : i < 8
  · simp [h1]
  · by_cases h2 : i < 16
    · simp [h1, show i - 8 < 8 by omega]; congr 1; omega
    · by_cases h3 : i < 24
      · simp [h1, show ¬ i - 8 < 8 by omega, show i - 8 - 8 < 8 by omega]; congr 1; omega
      · simp [h1, show ¬ i - 8 < 8 by omega, show ¬ i - 8 - 8 < 8 by omega,
          show i - 8 - 8 - 8 < 8 by omega]; congr 1; omega

theorem take16_bytes16 (v : BitVec 16) (t) : take16 (bytes16 v ++ t) = some (v, t) := by
  simp only [bytes16, List.cons_append, List.nil_append, take16]
  congr 2
  apply BitVec.eq_of_getLsbD_eq
  intro i hi
  simp only [BitVec.getLsbD_append, BitVec.getLsbD_extractLsb']
  by_cases h1 : i < 8
  · simp [h1]
  · simp [h1, show i - 8 < 8 by omega]; congr 1; omega

theorem parseDisp_bytes (d : Disp) (t) : parseDisp d.mod (d.bytes ++ t) = some (d, t) := by
  cases d <;> simp [parseDisp, Disp.mod, Disp.bytes, take32_bytes32]

theorem parseDisp16_bytes (d : Disp16) (t) : parseDisp16 d.mod (d.bytes ++ t) = some (d, t) := by
  cases d <;> simp [parseDisp16, Disp16.mod, Disp16.bytes, take16_bytes16]

theorem sib_fields : ∀ (s : BitVec 2) (x b : BitVec 3), (s ++ x ++ b : BitVec 8).extractLsb' 6 2 = s ∧
    (s ++ x ++ b : BitVec 8).extractLsb' 3 3 = x ∧ (s ++ x ++ b : BitVec 8).extractLsb' 0 3 = b :=
    by decide

/-- The r/m operand that was written is the one read. -/
theorem parseRM_tail (a16 : Bool) (rm : RM) (h : rm.wf a16 = true) (t) :
    parseRM a16 rm.mod rm.low (rm.tail ++ t) = some (rm, t) := by
  cases rm with
  | reg r => simp [parseRM, RM.mod, RM.low, RM.tail]
  | mem m =>
    have dmod : ∀ d : Disp, d.mod ≠ 3 := by intro d; cases d <;> simp [Disp.mod]
    have dmod' : ∀ d : Disp16, d.mod ≠ 3 := by intro d; cases d <;> simp [Disp16.mod]
    have d0 : ∀ d : Disp, d.mod = 0 ↔ d = .none := by intro d; cases d <;> simp [Disp.mod]
    have d0' : ∀ d : Disp16, d.mod = 0 ↔ d = .none := by intro d; cases d <;> simp [Disp16.mod]
    cases m with
    | base r d =>
      simp [RM.wf, Mem.wf] at h
      obtain ⟨⟨rfl, h1⟩, h2⟩ := h
      simp only [parseRM, RM.mod, RM.low, RM.tail, dmod, if_false, parseMem, d0]
      rw [if_neg (by simp), if_neg (show ¬ r = 4 from h1), if_neg (by rintro ⟨rfl, rfl⟩; simp at h2),
          parseDisp_bytes]; rfl
    | disp32 v =>
      simp [RM.wf, Mem.wf] at h; subst h
      simp [parseRM, RM.mod, RM.low, RM.tail, parseMem, take32_bytes32]
    | sib s x b d =>
      simp [RM.wf, Mem.wf] at h
      obtain ⟨rfl, h2⟩ := h
      simp only [parseRM, RM.mod, RM.low, RM.tail, dmod, if_false, parseMem, if_true, List.cons_append,
          parseSib, sib_fields, d0, Bool.false_eq_true]
      rw [if_neg (by rintro ⟨rfl, rfl⟩; simp at h2), parseDisp_bytes]; rfl
    | sibDisp32 s x v =>
      simp [RM.wf, Mem.wf] at h; subst h
      simp only [parseRM, RM.mod, RM.low, RM.tail, parseMem, if_true, List.cons_append, parseSib,
          sib_fields, Bool.false_eq_true, if_false]
      simp [take32_bytes32]
    | base16 r d =>
      simp [RM.wf, Mem.wf] at h
      obtain ⟨rfl, h2⟩ := h
      simp only [parseRM, RM.mod, RM.low, RM.tail, dmod', if_false, parseMem, d0', if_true]
      rw [if_neg (by rintro ⟨rfl, rfl⟩; simp at h2), parseDisp16_bytes]; rfl
    | disp16 v =>
      simp [RM.wf, Mem.wf] at h; subst h
      simp [parseRM, RM.mod, RM.low, RM.tail, parseMem, take16_bytes16]

/-- Reading what `encodeModRM` wrote: the length is judged first. -/
theorem withModRM_encode (m pre fixed) (reg : BitVec 3) (rm : RM) (t judge) (h : rm.wf (addr16 m pre) =
    true) :
   withModRM m pre fixed (encodeModRM reg rm ++ t) judge =
       if maxLen < encodedLen pre fixed rm then .error .tooLong else (judge reg rm).map fun i => (i,
       t) := by
  have := sib_fields rm.mod reg rm.low
  simp only [withModRM, encodeModRM, List.cons_append, nextByte, this, parseRM_tail _ _ h]

/-- The bits of V1 (30_encoding.md R75). -/
theorem vexByte1_bits : ∀ (r x b : Bool), ∀ V : Byte, V = BitVec.ofBool (!r) ++ BitVec.ofBool (!x) ++
    BitVec.ofBool (!b) ++ 0b00010#5 →
  (!V.getLsbD 7) = r ∧ (!V.getLsbD 6) = x ∧ (!V.getLsbD 5) = b ∧ V.extractLsb' 0 5 = 2 ∧
      (V.extractLsb' 6 2 = 3 ↔ r = false ∧ x = false) := by
  rintro r x b V rfl; revert r x b; decide

/-- The bits of V2 (30_encoding.md R75). -/
theorem vexByte2_bits : ∀ (w : Bool) (vv : BitVec 4) (l : BitVec 1),
  (BitVec.ofBool w ++ ~~~vv ++ l ++ 0b01#2 : Byte).getLsbD 7 = w ∧ ~~~((BitVec.ofBool w ++ ~~~vv ++
      l ++ 0b01#2 : Byte).extractLsb' 3 4) = vv ∧
   (BitVec.ofBool w ++ ~~~vv ++ l ++ 0b01#2 : Byte).getLsbD 2 = (l == 1) ∧ (BitVec.ofBool w ++ ~~~vv ++
       l ++ 0b01#2 : Byte).extractLsb' 0 2 = 1 := by
  decide

theorem vex_ofBytes (v : Vex) (l) : Vex.ofBytes v.byte1 (v.byte2 l) = v := by
  obtain ⟨r,x,b,w,vv⟩ := v
  obtain ⟨h1,h2,h3,-,-⟩ := vexByte1_bits r x b _ rfl
  obtain ⟨h4,h5,-,-⟩ := vexByte2_bits w vv l
  simp only [Vex.ofBytes, Vex.byte1, Vex.byte2, h1, h2, h3, h4, h5]

/-- The bits of P0 (30_encoding.md R77). -/
theorem evexByte0_bits : ∀ (r x b rr : Bool), ∀ V : Byte, V = BitVec.ofBool (!r) ++
    BitVec.ofBool (!x) ++ BitVec.ofBool (!b) ++ BitVec.ofBool (!rr) ++ 0b0010#4 →
  (!V.getLsbD 7) = r ∧ (!V.getLsbD 6) = x ∧ (!V.getLsbD 5) = b ∧ (!V.getLsbD 4) = rr ∧
      V.extractLsb' 0 2 = 2 ∧ V.extractLsb' 2 2 = 0 ∧ (V.extractLsb' 6 2 = 3 ↔ r = false ∧ x =
      false) := by
  rintro r x b rr V rfl; revert r x b rr; decide

/-- The bits of P1 (30_encoding.md R77). -/
theorem evexByte1_bits : ∀ (w : Bool) (vv : BitVec 4),
  (BitVec.ofBool w ++ ~~~vv ++ 0b101#3 : Byte).getLsbD 7 = w ∧ ~~~((BitVec.ofBool w ++ ~~~vv ++
      0b101#3 : Byte).extractLsb' 3 4) = vv ∧
   (BitVec.ofBool w ++ ~~~vv ++ 0b101#3 : Byte).getLsbD 2 = true ∧ (BitVec.ofBool w ++ ~~~vv ++
       0b101#3 : Byte).extractLsb' 0 2 = 1 := by
  decide

/-- The bits of P2 (30_encoding.md R77). -/
theorem evexByte2_bits : ∀ (z : Bool) (ll : BitVec 2) (vv : Bool) (aaa : BitVec 3), ∀ V : Byte, V =
    BitVec.ofBool z ++ ll ++ 0#1 ++ BitVec.ofBool (!vv) ++ aaa →
   V.getLsbD 7 = z ∧ (!V.getLsbD 3) = vv ∧ V.extractLsb' 0 3 = aaa ∧ V.extractLsb' 5 2 = ll ∧
       V.getLsbD 4 = false := by
  rintro z ll vv aaa V rfl; revert z ll vv aaa; decide

theorem evex_ofBytes (e : Evex) (ll) : Evex.ofBytes e.byte0 e.byte1 (e.byte2 ll) = e := by
  obtain ⟨r,x,b,rr,w,vvvv,z,vv,aaa⟩ := e
  obtain ⟨h1,h2,h3,h3',-⟩ := evexByte0_bits r x b rr _ rfl
  obtain ⟨h4,h5,-,-⟩ := evexByte1_bits w vvvv
  obtain ⟨h6,h7,h8,h9,h10⟩ := evexByte2_bits z ll vv aaa _ rfl
  simp only [Evex.ofBytes, Evex.byte0, Evex.byte1, Evex.byte2, h1, h2, h3, h3', h4, h5, h6, h7, h8]

/-- Of the reserved patterns of 30_encoding.md R92 the encoder can spell two. -/
theorem evex_reserved (e : Evex) (ll : BitVec 2) : evexReserved e.byte0 e.byte1 (e.byte2 ll) =
    (ll == 3 || (e.z && e.aaa == 0)) := by
  obtain ⟨r,x,b,rr,w,vvvv,z,vv,aaa⟩ := e
  obtain ⟨-,-,-,-,-,hb,-⟩ := evexByte0_bits r x b rr _ rfl
  obtain ⟨h4,h5,hc,-⟩ := evexByte1_bits w vvvv
  obtain ⟨h6,h7,h8,h9,h10⟩ := evexByte2_bits z ll vv aaa _ rfl
  simp only [evexReserved, Evex.byte0, Evex.byte1, Evex.byte2, hb, hc, h6, h8, h9, h10]
  simp

/-- Everything the decoder can answer for a spelled legacy form, in the order it judges. -/
theorem decode_encodeLegacy (m pre reg rm t) (hp : ∀ p ∈ pre, Prefix.existsIn m p = true) (h :
    rm.wf (addr16 m pre) = true) :
  decode m (encodeLegacy pre reg rm ++ t) = if maxLen < encodedLen pre 3 rm then .error .tooLong
    else if pre.any Prefix.isReserved then .error .invalid
    else if hasOpSize pre then .ok (.pmulhrswXmm pre reg rm, t)
    else .ok (.pmulhrswMm pre reg rm, t) := by
  have h0 : Prefix.ofByte m 0x0F = none := by cases m <;> decide
  have e : encodeLegacy pre reg rm ++ t = pre.map Prefix.toByte ++
      0x0F :: (0x38 :: 0x0B :: (encodeModRM reg rm ++ t)) := by simp [encodeLegacy]
  rw [e, decode, scanPrefixes_append m pre hp _ _ h0]
  simp only [decodeBody, nextByte, if_true, decodeLegacy, ne_eq, not_true_eq_false, if_false,
      withModRM_encode _ _ _ _ _ _ _ h]
  split <;> [rfl; skip]
  split <;> [rfl; skip]
  split <;> rfl

/-- Everything the decoder can answer for a spelled VEX form. -/
theorem decode_encodeVex (m pre v l reg rm t) (hp : ∀ p ∈ pre, Prefix.existsIn m p = true) (h :
    rm.wf (addr16 m pre) = true) (hm : m = .bits64 ∨ (v.r = false ∧ v.x = false)) :
  decode m (encodeVex l pre v reg rm ++ t) = if maxLen < encodedLen pre 4 rm then .error .tooLong
    else if !pre.all Prefix.beforeVex then .error .invalid
    else if m ≠ .bits64 ∧ v.extended then .error (extensionError m)
    else if l = 1 then .ok (.vpmulhrswVex256 pre v reg rm, t)
    else .ok (.vpmulhrswVex128 pre v reg rm, t) := by
  have h0 : Prefix.ofByte m 0xC4 = none := by cases m <;> decide
  have e : encodeVex l pre v reg rm ++ t = pre.map Prefix.toByte ++
      0xC4 :: (v.byte1 :: v.byte2 l :: 0x0B :: (encodeModRM reg rm ++ t)) := by simp [encodeVex]
  obtain ⟨-,-,-,h4,h5⟩ := vexByte1_bits v.r v.x v.b v.byte1 rfl
  obtain ⟨-,-,h6,h7⟩ := vexByte2_bits v.w v.vvvv l
  have hi : isVexIntroduced m v.byte1 = true := by
    simp only [isVexIntroduced, Bool.or_eq_true, beq_iff_eq]; exact hm.imp id h5.2
  have h6' : (v.byte2 l).getLsbD 2 = (l == 1) := h6
  have h7' : (v.byte2 l).extractLsb' 0 2 = 1 := h7
  rw [e, decode, scanPrefixes_append m pre hp _ _ h0]
  simp only [decodeBody, nextByte, show (0xC4 : Byte) ≠ 0x0F by decide, if_true, if_false, decodeVex,
      hi, h4, h7', withModRM_encode _ _ _ _ _ _ _ h, vex_ofBytes, h6']
  simp only [Bool.not_true, Bool.false_eq_true, if_false, ne_eq, not_true_eq_false, false_or,
      show ¬ ((2 : BitVec 5) = 1) by decide, show ¬ ((2 : BitVec 5) = 3) by decide]
  split <;> [rfl; skip]
  split <;> [rfl; skip]
  split <;> [rfl; skip]
  obtain rfl | rfl := (show ∀ l : BitVec 1, l = 0 ∨ l = 1 by decide) l <;> rfl

/-- Everything the decoder can answer for a spelled EVEX form. -/
theorem decode_encodeEvex (m pre e ll reg rm t) (hp : ∀ p ∈ pre, Prefix.existsIn m p = true) (h :
    rm.wf (addr16 m pre) = true) (hm : m = .bits64 ∨ (e.r = false ∧ e.x = false)) :
  decode m (encodeEvex ll pre e reg rm ++ t) = if maxLen < encodedLen pre 5 rm then .error .tooLong
    else if (ll == 3 || (e.z && e.aaa == 0)) then .error .invalid
    else if !pre.all Prefix.beforeVex then .error .invalid
    else if m ≠ .bits64 ∧ e.extended then .error (extensionError m)
    else .ok (evexInstr ll pre e reg rm, t) := by
  have h0 : Prefix.ofByte m 0x62 = none := by cases m <;> decide
  have eq : encodeEvex ll pre e reg rm ++ t = pre.map Prefix.toByte ++
      0x62 :: (e.byte0 :: e.byte1 :: e.byte2 ll :: 0x0B :: (encodeModRM reg rm ++ t)) :=
      by simp [encodeEvex]
  obtain ⟨-,-,-,-,h4,-,h5⟩ := evexByte0_bits e.r e.x e.b e.rr e.byte0 rfl
  obtain ⟨-,-,-,h7⟩ := evexByte1_bits e.w e.vvvv
  obtain ⟨-,-,-,h9,-⟩ := evexByte2_bits e.z ll e.vv e.aaa (e.byte2 ll) rfl
  have hi : isVexIntroduced m e.byte0 = true := by
    simp only [isVexIntroduced, Bool.or_eq_true, beq_iff_eq]; exact hm.imp id h5.2
  have h7' : e.byte1.extractLsb' 0 2 = 1 := h7
  rw [eq, decode, scanPrefixes_append m pre hp _ _ h0]
  simp only [decodeBody, nextByte, show (0x62 : Byte) ≠ 0x0F by decide, show (0x62 :
      Byte) ≠ 0xC4 by decide, if_true, if_false, decodeEvex, hi, h4, h7', h9,
      withModRM_encode _ _ _ _ _ _ _ h, evex_ofBytes, evex_reserved]
  simp only [Bool.not_true, Bool.false_eq_true, if_false, ne_eq, not_true_eq_false, false_or]
  split <;> [rfl; skip]
  split <;> [rfl; skip]
  split <;> [rfl; skip]
  split <;> rfl

/-- The segments that overrides name are those of the override prefixes. -/
theorem mem_segOverrides (pre : List Prefix) (g : Seg) : g ∈ segOverrides pre ↔ .seg g ∈ pre := by
  simp only [segOverrides, List.mem_filterMap]
  constructor
  · rintro ⟨p, hp, h⟩
    cases p <;> simp at h
    exact h ▸ hp
  · exact fun h => ⟨_, h, rfl⟩

/-- The prefixes allowed before VEX and EVEX exist in every mode. -/
theorem existsIn_of_beforeVex {m} {pre : List Prefix} (h : pre.all Prefix.beforeVex = true) :
    ∀ p ∈ pre, Prefix.existsIn m p = true := by
  intro p hp; have := List.all_eq_true.1 h p hp; cases p <;> simp_all [Prefix.beforeVex, Prefix.existsIn]

end Sys2Proof
end

