-- ==== Sys2Proof/Laws/Lanes.lean ====
section
/-! SUPPORT. The laws of lanes: what lane j of a lane-wise value is. -/

namespace Sys2Proof.Machine

/-- Bit `i` of the value whose lanes are `f 0` to `f (n - 1)`. -/
theorem getLsbD_ofLanes (f : Nat → Lane) (n i : Nat) (hi : i < 512) :
    (ofLanes f n).getLsbD i = (decide (i / 16 < n) && (f (i / 16)).getLsbD (i % 16)) := by
  induction n with
  | zero => simp [ofLanes]
  | succ n ih =>
    rw [ofLanes, BitVec.getLsbD_or, ih]
    by_cases h : i / 16 = n
    · subst h
      have h1 : ¬ i < 16 * (i / 16) := by omega
      have h2 : i - 16 * (i / 16) = i % 16 := by omega
      simp [h1, h2, hi]
    · have hz : ((f n).setWidth 512 <<< (16 * n)).getLsbD i = false := by
        simp only [BitVec.getLsbD_shiftLeft, BitVec.getLsbD_setWidth]
        by_cases h1 : i < 16 * n
        · simp [h1]
        · have : 16 ≤ i - 16 * n := by omega
          simp [BitVec.getLsbD_of_ge _ _ this]
      have hd : decide (i / 16 < n) = decide (i / 16 < n + 1) := decide_eq_decide.2 (by omega)
      rw [hz, hd, Bool.or_false]

/-- Lane `j` of a lane-wise value, and 0 above its lanes. -/
theorem lane_ofLanes (f : Nat → Lane) (n j : Nat) (hj : j < 32) :
    lane (ofLanes f n) j = if j < n then f j else 0 := by
  ext i hi
  have h1 : (16 * j + i) / 16 = j := by omega
  have h2 : (16 * j + i) % 16 = i := by omega
  rw [lane, BitVec.getElem_extractLsb', getLsbD_ofLanes f n _ (by omega), h1, h2]
  split <;> simp_all

/-- Lane j of an unmasked result (40_mulhrs_lane.md R117). -/
theorem lane_mulhrsLanes (kl : Nat) (a b : VReg) (j : Nat) (hj : j < 32) :
    lane (mulhrsLanes kl a b) j = if j < kl then mulhrs16 (lane a j) (lane b j) else 0 :=
  lane_ofLanes _ kl j hj

/-- Lane j of a masked result (43_vpmulhrsw_evex.md R140). -/
theorem lane_mulhrsMasked (kl : Nat) (m : Nat → Bool) (z : Bool) (old a b : VReg) (j : Nat) (hj : j < 32) :
    lane (mulhrsMasked kl m z old a b) j =
      if j < kl then
        if m j then mulhrs16 (lane a j) (lane b j) else if z then 0 else lane old j
      else 0 :=
  lane_ofLanes _ kl j hj

/-- Two vector values with equal lanes are equal. -/
theorem eq_of_lanes {a b : VReg} (h : ∀ j < 32, lane a j = lane b j) : a = b := by
  apply BitVec.eq_of_getLsbD_eq
  intro i hi
  have := congrArg (fun l : Lane => l.getLsbD (i % 16)) (h (i / 16) (by omega))
  have e : 16 * (i / 16) + i % 16 = i := by omega
  have hm : i % 16 < 16 := by omega
  simpa [lane, e, hm] using this

/-- A lane-wise value has no bit above its lanes. -/
theorem toNat_ofLanes_lt (f : Nat → Lane) (n : Nat) : (ofLanes f n).toNat < 2 ^ (16 * n) := by
  apply Nat.lt_pow_two_of_testBit
  intro i hi
  rw [BitVec.testBit_toNat]
  by_cases h : i < 512
  · rw [getLsbD_ofLanes f n i h, decide_eq_false (by omega), Bool.false_and]
  · exact BitVec.getLsbD_of_ge _ _ (by omega)

end Sys2Proof.Machine
end

