-- ==== Sys2Proof/Laws/Memory.lean ====
section
/-! SUPPORT. The laws of memory: reading after writing, and the canonical form. -/

namespace Sys2Proof.Machine

theorem Memory.wf_nil : Memory.wf [] := by simp [Memory.wf]

theorem Memory.wf_tail {c : Host.Cell} {t : List Host.Cell} (h : Memory.wf (c :: t)) : Memory.wf t :=
  ⟨(List.pairwise_cons.1 h.1).2, fun d hd => h.2 d (List.mem_cons_of_mem _ hd)⟩

/-- Below the first listed address nothing is listed. -/
theorem Memory.read_of_lt {m : List Host.Cell} {a : Nat} (h : ∀ c ∈ m, a < c.1) :
    Memory.read m a = Memory.unlisted := by
  induction m with
  | nil => rfl
  | cons c t ih =>
    have hc := h c (by simp)
    rw [Memory.read, if_neg (by omega)]
    exact ih fun d hd => h d (List.mem_cons_of_mem _ hd)

theorem Memory.read_cons_op (a : Nat) (v : Byte) (t : List Host.Cell) (x : Nat)
    (h : ∀ c ∈ t, a < c.1) :
    Memory.read (Memory.cons a v t) x = if x = a then v else Memory.read t x := by
  unfold Memory.cons
  split
  · next hv =>
    split
    · next hx => rw [hx, hv]; exact Memory.read_of_lt h
    · rfl
  · by_cases hx : x = a
    · simp [Memory.read, hx]
    · simp [Memory.read, hx, Ne.symm hx]

theorem Memory.wf_cons {a : Nat} {v : Byte} {t : List Host.Cell} (h : ∀ c ∈ t, a < c.1) (ht : Memory.wf t) :
    Memory.wf (Memory.cons a v t) := by
  unfold Memory.cons
  split
  · exact ht
  · next hv =>
    exact ⟨List.pairwise_cons.2 ⟨fun c hc => h c hc, ht.1⟩,
      fun c hc => (List.mem_cons.1 hc).elim (fun e => e ▸ hv) (ht.2 c)⟩

theorem Memory.mem_cons {a : Nat} {v : Byte} {t : List Host.Cell} {c : Host.Cell}
    (h : c ∈ Memory.cons a v t) : c.1 = a ∨ c ∈ t := by
  unfold Memory.cons at h
  split at h
  · exact .inr h
  · exact (List.mem_cons.1 h).imp (fun e => by rw [e]) id

/-- A write lists no address but its own and those listed before. -/
theorem Memory.mem_write {m : List Host.Cell} {a : Nat} {v : Byte} {c : Host.Cell}
    (h : c ∈ Memory.write m a v) : c.1 = a ∨ c ∈ m := by
  induction m with
  | nil => exact Memory.mem_cons h
  | cons d t ih =>
    unfold Memory.write at h
    split at h
    · exact Memory.mem_cons h
    · split at h
      · exact (Memory.mem_cons h).imp id (List.mem_cons_of_mem _)
      · rcases List.mem_cons.1 h with e | e
        · exact .inr (by simp [e])
        · exact (ih e).imp id (List.mem_cons_of_mem _)

/-- Every write keeps the canonical form. -/
theorem Memory.write_wf {m : List Host.Cell} (a : Nat) (v : Byte) (h : Memory.wf m) :
    Memory.wf (Memory.write m a v) := by
  induction m with
  | nil => exact Memory.wf_cons (by simp) h
  | cons c t ih =>
    have hc := (List.pairwise_cons.1 h.1).1
    have ht := Memory.wf_tail h
    unfold Memory.write
    split
    · next ha =>
      refine Memory.wf_cons (fun d hd => ?_) h
      rcases List.mem_cons.1 hd with e | e
      · exact e ▸ ha
      · exact Nat.lt_trans ha (hc d e)
    · split
      · next ha => exact Memory.wf_cons (fun d hd => ha ▸ hc d hd) ht
      · next h1 h2 =>
        have hlt : c.1 < a := by omega
        refine ⟨List.pairwise_cons.2 ⟨fun d hd => ?_, (ih ht).1⟩, fun d hd => ?_⟩
        · rcases Memory.mem_write hd with e | e
          · rw [e]; exact hlt
          · exact hc d e
        · rcases List.mem_cons.1 hd with e | e
          · exact e ▸ h.2 c (by simp)
          · exact (ih ht).2 d e

/-- A read after a write: the value written at that address, what was there at every other. -/
theorem Memory.read_write {m : List Host.Cell} (a : Nat) (v : Byte) (x : Nat) (h : Memory.wf m) :
    Memory.read (Memory.write m a v) x = if x = a then v else Memory.read m x := by
  induction m with
  | nil => exact Memory.read_cons_op a v [] x (by simp)
  | cons c t ih =>
    have hc := (List.pairwise_cons.1 h.1).1
    unfold Memory.write
    split
    · next ha =>
      refine Memory.read_cons_op a v (c :: t) x fun d hd => ?_
      rcases List.mem_cons.1 hd with e | e
      · exact e ▸ ha
      · exact Nat.lt_trans ha (hc d e)
    · split
      · next ha =>
        rw [Memory.read_cons_op a v t x fun d hd => ha ▸ hc d hd]
        split
        · rfl
        · next hx => simp [Memory.read, ← ha, Ne.symm hx]
      · next h1 h2 =>
        simp only [Memory.read, ih (Memory.wf_tail h)]
        split
        · next e => rw [if_neg (by omega)]
        · rfl

theorem Memory.writeBytes_wf (bs : List Byte) {m : List Host.Cell} (a : Nat) (h : Memory.wf m) :
    Memory.wf (Memory.writeBytes m a bs) := by
  induction bs generalizing m a with
  | nil => exact h
  | cons b t ih => exact ih (a + 1) (Memory.write_wf a b h)

/-- A byte outside the bytes stored is as before. -/
theorem Memory.read_writeBytes_outside (bs : List Byte) {m : List Host.Cell} (a x : Nat) (h : Memory.wf m)
    (hx : x < a ∨ a + bs.length ≤ x) : Memory.read (Memory.writeBytes m a bs) x = Memory.read m x := by
  induction bs generalizing m a with
  | nil => rfl
  | cons b t ih =>
    rw [List.length_cons] at hx
    rw [Memory.writeBytes, ih (a + 1) (Memory.write_wf a b h) (by omega), Memory.read_write a b x h,
      if_neg (by omega)]

/-- Each byte stored reads back. -/
theorem Memory.read_writeBytes (bs : List Byte) {m : List Host.Cell} (a i : Nat) (h : Memory.wf m)
    (hi : i < bs.length) : Memory.read (Memory.writeBytes m a bs) (a + i) = bs[i] := by
  induction bs generalizing m a i with
  | nil => simp at hi
  | cons b t ih =>
    cases i with
    | zero =>
      rw [Memory.writeBytes, Memory.read_writeBytes_outside t _ _ (Memory.write_wf a b h) (by omega),
        Memory.read_write a b _ h]
      simp
    | succ i =>
      have := ih (a + 1) i (Memory.write_wf a b h) (by simpa using hi)
      rw [Memory.writeBytes, show a + (i + 1) = a + 1 + i by omega, this]
      simp

/-- Bit `i` of the bytes that `readSelected` assembles: little-endian (20_memory.md R51). -/
theorem Memory.getLsbD_readSelected (m : List Host.Cell) (sel : Nat → Bool) (a n i : Nat) (hi : i < 512) :
    (Memory.readSelected m sel a n).getLsbD i =
      (decide (i / 8 < n) && sel (i / 8) && (Memory.read m (a + i / 8)).getLsbD (i % 8)) := by
  induction n with
  | zero => simp [Memory.readSelected]
  | succ n ih =>
    rw [Memory.readSelected, BitVec.getLsbD_or, ih]
    by_cases h : i / 8 = n
    · subst h
      have h1 : ¬ i < 8 * (i / 8) := by omega
      have h2 : i - 8 * (i / 8) = i % 8 := by omega
      cases hs : sel (i / 8) <;>
        simp [h1, h2, hi]
    · have hz : (if sel n = true then (Memory.read m (a + n)).setWidth 512 <<< (8 * n) else 0#512).getLsbD i
          = false := by
        split
        · simp only [BitVec.getLsbD_shiftLeft, BitVec.getLsbD_setWidth]
          by_cases h1 : i < 8 * n
          · simp [h1]
          · have : 8 ≤ i - 8 * n := by omega
            simp [BitVec.getLsbD_of_ge _ _ this]
        · simp
      have hd : decide (i / 8 < n) = decide (i / 8 < n + 1) := decide_eq_decide.2 (by omega)
      rw [show (0 : VReg) = 0#512 from rfl, hz, hd, Bool.or_false]

end Sys2Proof.Machine
end

