-- ==== Sys2Proof/Laws/PerInstr.lean ====
section
/-! SUPPORT. Facts stated of every instruction as syntax, one lemma per constructor. -/

namespace Sys2Proof.Laws

theorem length_disp (d : Disp) : d.bytes.length = d.size := by cases d <;> rfl

theorem length_disp16 (d : Disp16) : d.bytes.length = d.size := by cases d <;> rfl

theorem length_tail (rm : RM) : rm.tail.length = rm.size := by
  cases rm with
  | reg r => rfl
  | mem m => cases m <;> simp [RM.tail, RM.size, length_disp, length_disp16, bytes32, bytes16, Nat.add_comm]

/-- The encoder's bytes are as many as 30_encoding.md R98 counts. -/
def EncodedLength.Statement (i : Instr) : Prop := (encode i).length = i.len

theorem EncodedLength.pmulhrswMm (pre : List Prefix) (reg : BitVec 3) (rm : RM) :
    EncodedLength.Statement (.pmulhrswMm pre reg rm) := by
  simp [EncodedLength.Statement, encode, encodeLegacy, encodeModRM, Instr.len, encodedLen, length_tail]
  omega

theorem EncodedLength.pmulhrswXmm (pre : List Prefix) (reg : BitVec 3) (rm : RM) :
    EncodedLength.Statement (.pmulhrswXmm pre reg rm) := by
  simp [EncodedLength.Statement, encode, encodeLegacy, encodeModRM, Instr.len, encodedLen, length_tail]
  omega

theorem EncodedLength.vpmulhrswVex128 (pre : List Prefix) (v : Vex) (reg : BitVec 3) (rm : RM) :
    EncodedLength.Statement (.vpmulhrswVex128 pre v reg rm) := by
  simp [EncodedLength.Statement, encode, encodeVex, encodeModRM, Instr.len, encodedLen, length_tail]
  omega

theorem EncodedLength.vpmulhrswVex256 (pre : List Prefix) (v : Vex) (reg : BitVec 3) (rm : RM) :
    EncodedLength.Statement (.vpmulhrswVex256 pre v reg rm) := by
  simp [EncodedLength.Statement, encode, encodeVex, encodeModRM, Instr.len, encodedLen, length_tail]
  omega

theorem EncodedLength.vpmulhrswEvex128 (pre : List Prefix) (e : Evex) (reg : BitVec 3) (rm : RM) :
    EncodedLength.Statement (.vpmulhrswEvex128 pre e reg rm) := by
  simp [EncodedLength.Statement, encode, encodeEvex, encodeModRM, Instr.len, encodedLen, length_tail]
  omega

theorem EncodedLength.vpmulhrswEvex256 (pre : List Prefix) (e : Evex) (reg : BitVec 3) (rm : RM) :
    EncodedLength.Statement (.vpmulhrswEvex256 pre e reg rm) := by
  simp [EncodedLength.Statement, encode, encodeEvex, encodeModRM, Instr.len, encodedLen, length_tail]
  omega

theorem EncodedLength.vpmulhrswEvex512 (pre : List Prefix) (e : Evex) (reg : BitVec 3) (rm : RM) :
    EncodedLength.Statement (.vpmulhrswEvex512 pre e reg rm) := by
  simp [EncodedLength.Statement, encode, encodeEvex, encodeModRM, Instr.len, encodedLen, length_tail]
  omega

end Sys2Proof.Laws
end

