-- ==== Sys2Proof/Laws/State.lean ====
section
/-! SUPPORT. What each update of the state leaves in each field. -/

namespace Sys2Proof.Machine

variable (s : State)

/-! ## `pc <- pc + len` -/

@[simp] theorem advance_config (len : Nat) : (s.advance len).config = s.config := rfl
@[simp] theorem advance_pc (len : Nat) : (s.advance len).pc = s.pc + BitVec.ofNat 64 len := rfl
@[simp] theorem advance_gpr (len : Nat) : (s.advance len).gpr = s.gpr := rfl
@[simp] theorem advance_x87 (len : Nat) : (s.advance len).x87 = s.x87 := rfl
@[simp] theorem advance_fpuTag (len : Nat) : (s.advance len).fpuTag = s.fpuTag := rfl
@[simp] theorem advance_fpuTop (len : Nat) : (s.advance len).fpuTop = s.fpuTop := rfl
@[simp] theorem advance_fpuPending (len : Nat) : (s.advance len).fpuPending = s.fpuPending := rfl
@[simp] theorem advance_vec (len : Nat) : (s.advance len).vec = s.vec := rfl
@[simp] theorem advance_k (len : Nat) : (s.advance len).k = s.k := rfl
@[simp] theorem advance_seg (len : Nat) : (s.advance len).seg = s.seg := rfl
@[simp] theorem advance_csL (len : Nat) : (s.advance len).csL = s.csL := rfl
@[simp] theorem advance_baseMode (len : Nat) : (s.advance len).baseMode = s.baseMode := rfl
@[simp] theorem advance_cpl (len : Nat) : (s.advance len).cpl = s.cpl := rfl
@[simp] theorem advance_efer (len : Nat) : (s.advance len).efer = s.efer := rfl
@[simp] theorem advance_cr0 (len : Nat) : (s.advance len).cr0 = s.cr0 := rfl
@[simp] theorem advance_cr2 (len : Nat) : (s.advance len).cr2 = s.cr2 := rfl
@[simp] theorem advance_cr4 (len : Nat) : (s.advance len).cr4 = s.cr4 := rfl
@[simp] theorem advance_xcr0 (len : Nat) : (s.advance len).xcr0 = s.xcr0 := rfl
@[simp] theorem advance_rflags (len : Nat) : (s.advance len).rflags = s.rflags := rfl
@[simp] theorem advance_mxcsr (len : Nat) : (s.advance len).mxcsr = s.mxcsr := rfl
@[simp] theorem advance_regions (len : Nat) : (s.advance len).regions = s.regions := rfl
@[simp] theorem advance_mem (len : Nat) : (s.advance len).mem = s.mem := rfl

/-! ## `V[n] <- v` -/

@[simp] theorem writeV_config (n : BitVec 5) (v : VReg) : (s.writeV n v).config = s.config := rfl
@[simp] theorem writeV_pc (n : BitVec 5) (v : VReg) : (s.writeV n v).pc = s.pc := rfl
@[simp] theorem writeV_gpr (n : BitVec 5) (v : VReg) : (s.writeV n v).gpr = s.gpr := rfl
@[simp] theorem writeV_x87 (n : BitVec 5) (v : VReg) : (s.writeV n v).x87 = s.x87 := rfl
@[simp] theorem writeV_fpuTag (n : BitVec 5) (v : VReg) : (s.writeV n v).fpuTag = s.fpuTag := rfl
@[simp] theorem writeV_fpuTop (n : BitVec 5) (v : VReg) : (s.writeV n v).fpuTop = s.fpuTop := rfl
@[simp] theorem writeV_fpuPending (n : BitVec 5) (v : VReg) : (s.writeV n v).fpuPending = s.fpuPending := rfl
@[simp] theorem writeV_vec (n : BitVec 5) (v : VReg) : (s.writeV n v).vec = s.vec.set n.toNat v n.isLt := rfl
@[simp] theorem writeV_k (n : BitVec 5) (v : VReg) : (s.writeV n v).k = s.k := rfl
@[simp] theorem writeV_seg (n : BitVec 5) (v : VReg) : (s.writeV n v).seg = s.seg := rfl
@[simp] theorem writeV_csL (n : BitVec 5) (v : VReg) : (s.writeV n v).csL = s.csL := rfl
@[simp] theorem writeV_baseMode (n : BitVec 5) (v : VReg) : (s.writeV n v).baseMode = s.baseMode := rfl
@[simp] theorem writeV_cpl (n : BitVec 5) (v : VReg) : (s.writeV n v).cpl = s.cpl := rfl
@[simp] theorem writeV_efer (n : BitVec 5) (v : VReg) : (s.writeV n v).efer = s.efer := rfl
@[simp] theorem writeV_cr0 (n : BitVec 5) (v : VReg) : (s.writeV n v).cr0 = s.cr0 := rfl
@[simp] theorem writeV_cr2 (n : BitVec 5) (v : VReg) : (s.writeV n v).cr2 = s.cr2 := rfl
@[simp] theorem writeV_cr4 (n : BitVec 5) (v : VReg) : (s.writeV n v).cr4 = s.cr4 := rfl
@[simp] theorem writeV_xcr0 (n : BitVec 5) (v : VReg) : (s.writeV n v).xcr0 = s.xcr0 := rfl
@[simp] theorem writeV_rflags (n : BitVec 5) (v : VReg) : (s.writeV n v).rflags = s.rflags := rfl
@[simp] theorem writeV_mxcsr (n : BitVec 5) (v : VReg) : (s.writeV n v).mxcsr = s.mxcsr := rfl
@[simp] theorem writeV_regions (n : BitVec 5) (v : VReg) : (s.writeV n v).regions = s.regions := rfl
@[simp] theorem writeV_mem (n : BitVec 5) (v : VReg) : (s.writeV n v).mem = s.mem := rfl

/-! ## `MM[n] <- v` -/

@[simp] theorem writeMm_config (n : BitVec 3) (v : BitVec 64) : (s.writeMm n v).config = s.config := rfl
@[simp] theorem writeMm_pc (n : BitVec 3) (v : BitVec 64) : (s.writeMm n v).pc = s.pc := rfl
@[simp] theorem writeMm_gpr (n : BitVec 3) (v : BitVec 64) : (s.writeMm n v).gpr = s.gpr := rfl
@[simp] theorem writeMm_x87 (n : BitVec 3) (v : BitVec 64) : (s.writeMm n v).x87 = s.x87.set n.toNat (mmxImage v) n.isLt := rfl
@[simp] theorem writeMm_fpuTag (n : BitVec 3) (v : BitVec 64) : (s.writeMm n v).fpuTag = 0 := rfl
@[simp] theorem writeMm_fpuTop (n : BitVec 3) (v : BitVec 64) : (s.writeMm n v).fpuTop = 0 := rfl
@[simp] theorem writeMm_fpuPending (n : BitVec 3) (v : BitVec 64) : (s.writeMm n v).fpuPending = s.fpuPending := rfl
@[simp] theorem writeMm_vec (n : BitVec 3) (v : BitVec 64) : (s.writeMm n v).vec = s.vec := rfl
@[simp] theorem writeMm_k (n : BitVec 3) (v : BitVec 64) : (s.writeMm n v).k = s.k := rfl
@[simp] theorem writeMm_seg (n : BitVec 3) (v : BitVec 64) : (s.writeMm n v).seg = s.seg := rfl
@[simp] theorem writeMm_csL (n : BitVec 3) (v : BitVec 64) : (s.writeMm n v).csL = s.csL := rfl
@[simp] theorem writeMm_baseMode (n : BitVec 3) (v : BitVec 64) : (s.writeMm n v).baseMode = s.baseMode := rfl
@[simp] theorem writeMm_cpl (n : BitVec 3) (v : BitVec 64) : (s.writeMm n v).cpl = s.cpl := rfl
@[simp] theorem writeMm_efer (n : BitVec 3) (v : BitVec 64) : (s.writeMm n v).efer = s.efer := rfl
@[simp] theorem writeMm_cr0 (n : BitVec 3) (v : BitVec 64) : (s.writeMm n v).cr0 = s.cr0 := rfl
@[simp] theorem writeMm_cr2 (n : BitVec 3) (v : BitVec 64) : (s.writeMm n v).cr2 = s.cr2 := rfl
@[simp] theorem writeMm_cr4 (n : BitVec 3) (v : BitVec 64) : (s.writeMm n v).cr4 = s.cr4 := rfl
@[simp] theorem writeMm_xcr0 (n : BitVec 3) (v : BitVec 64) : (s.writeMm n v).xcr0 = s.xcr0 := rfl
@[simp] theorem writeMm_rflags (n : BitVec 3) (v : BitVec 64) : (s.writeMm n v).rflags = s.rflags := rfl
@[simp] theorem writeMm_mxcsr (n : BitVec 3) (v : BitVec 64) : (s.writeMm n v).mxcsr = s.mxcsr := rfl
@[simp] theorem writeMm_regions (n : BitVec 3) (v : BitVec 64) : (s.writeMm n v).regions = s.regions := rfl
@[simp] theorem writeMm_mem (n : BitVec 3) (v : BitVec 64) : (s.writeMm n v).mem = s.mem := rfl

/-! ## Loading a program -/

@[simp] theorem loadAtPc_config (bs : List Byte) : (s.loadAtPc bs).config = s.config := rfl
@[simp] theorem loadAtPc_pc (bs : List Byte) : (s.loadAtPc bs).pc = s.pc := rfl
@[simp] theorem loadAtPc_gpr (bs : List Byte) : (s.loadAtPc bs).gpr = s.gpr := rfl
@[simp] theorem loadAtPc_x87 (bs : List Byte) : (s.loadAtPc bs).x87 = s.x87 := rfl
@[simp] theorem loadAtPc_fpuTag (bs : List Byte) : (s.loadAtPc bs).fpuTag = s.fpuTag := rfl
@[simp] theorem loadAtPc_fpuTop (bs : List Byte) : (s.loadAtPc bs).fpuTop = s.fpuTop := rfl
@[simp] theorem loadAtPc_fpuPending (bs : List Byte) : (s.loadAtPc bs).fpuPending = s.fpuPending := rfl
@[simp] theorem loadAtPc_vec (bs : List Byte) : (s.loadAtPc bs).vec = s.vec := rfl
@[simp] theorem loadAtPc_k (bs : List Byte) : (s.loadAtPc bs).k = s.k := rfl
@[simp] theorem loadAtPc_seg (bs : List Byte) : (s.loadAtPc bs).seg = s.seg := rfl
@[simp] theorem loadAtPc_csL (bs : List Byte) : (s.loadAtPc bs).csL = s.csL := rfl
@[simp] theorem loadAtPc_baseMode (bs : List Byte) : (s.loadAtPc bs).baseMode = s.baseMode := rfl
@[simp] theorem loadAtPc_cpl (bs : List Byte) : (s.loadAtPc bs).cpl = s.cpl := rfl
@[simp] theorem loadAtPc_efer (bs : List Byte) : (s.loadAtPc bs).efer = s.efer := rfl
@[simp] theorem loadAtPc_cr0 (bs : List Byte) : (s.loadAtPc bs).cr0 = s.cr0 := rfl
@[simp] theorem loadAtPc_cr2 (bs : List Byte) : (s.loadAtPc bs).cr2 = s.cr2 := rfl
@[simp] theorem loadAtPc_cr4 (bs : List Byte) : (s.loadAtPc bs).cr4 = s.cr4 := rfl
@[simp] theorem loadAtPc_xcr0 (bs : List Byte) : (s.loadAtPc bs).xcr0 = s.xcr0 := rfl
@[simp] theorem loadAtPc_rflags (bs : List Byte) : (s.loadAtPc bs).rflags = s.rflags := rfl
@[simp] theorem loadAtPc_mxcsr (bs : List Byte) : (s.loadAtPc bs).mxcsr = s.mxcsr := rfl
@[simp] theorem loadAtPc_regions (bs : List Byte) : (s.loadAtPc bs).regions = s.regions := rfl
@[simp] theorem loadAtPc_mem (bs : List Byte) : (s.loadAtPc bs).mem = Memory.writeBytes s.mem s.fetchAddress bs := rfl

/-! ## Registers read after a write -/

@[simp] theorem advance_v (len : Nat) (n : BitVec 5) : (s.advance len).v n = s.v n := rfl
@[simp] theorem advance_mm (len : Nat) (n : BitVec 3) : (s.advance len).mm n = s.mm n := rfl
@[simp] theorem advance_mode (len : Nat) : (s.advance len).mode = s.mode := rfl
@[simp] theorem writeV_mode (n : BitVec 5) (v : VReg) : (s.writeV n v).mode = s.mode := rfl
@[simp] theorem writeMm_mode (n : BitVec 3) (v : BitVec 64) : (s.writeMm n v).mode = s.mode := rfl

@[simp] theorem writeV_v_self (n : BitVec 5) (v : VReg) : (s.writeV n v).v n = v := by
  simp [State.v]

theorem writeV_v_ne {n m : BitVec 5} (v : VReg) (h : m ≠ n) : (s.writeV n v).v m = s.v m := by
  have hn : n.toNat ≠ m.toNat := fun e => h (BitVec.eq_of_toNat_eq e.symm)
  simp [State.v, hn]

/-- An MMX register reads the low 64 bits of what stands behind it. -/
@[simp] theorem setWidth_mmxImage (v : BitVec 64) : (mmxImage v).setWidth 64 = v := by
  ext i hi
  rw [mmxImage, BitVec.getElem_setWidth]
  erw [BitVec.getLsbD_append]
  simp [hi]

/-- Bits 79:64 of what stands behind a written MMX register are ones (10_state.md R22). -/
@[simp] theorem extract_mmxImage (v : BitVec 64) : (mmxImage v).extractLsb' 64 16 = 0xFFFF#16 := by
  ext i hi
  rw [mmxImage, BitVec.getElem_extractLsb']
  erw [BitVec.getLsbD_append]
  simp [BitVec.getLsbD_eq_getElem hi]

@[simp] theorem writeMm_mm_self (n : BitVec 3) (v : BitVec 64) : (s.writeMm n v).mm n = v := by
  simp [State.mm]

theorem writeMm_x87_ne {n m : BitVec 3} (v : BitVec 64) (h : m ≠ n) :
    (s.writeMm n v).x87[m.toNat]'m.isLt = s.x87[m.toNat]'m.isLt := by
  have hn : n.toNat ≠ m.toNat := fun e => h (BitVec.eq_of_toNat_eq e.symm)
  simp [hn]

@[simp] theorem writeMm_x87_self (n : BitVec 3) (v : BitVec 64) :
    (s.writeMm n v).x87[n.toNat]'n.isLt = mmxImage v := by
  simp

end Sys2Proof.Machine
end

