-- ==== Sys2Proof/Laws/Run.lean ====
section
/-! SUPPORT. What each shared operation can do, said once: the gate, the memory operand, and one
instruction as a whole. -/

namespace Sys2Proof.Machine

/-! ## Ordered checks -/

@[simp] theorem firstStop_nil : firstStop [] = none := rfl

@[simp] theorem firstStop_none_cons (l : List (Option Stop)) : firstStop (none :: l) = firstStop l := rfl

@[simp] theorem firstStop_some_cons (e : Stop) (l : List (Option Stop)) : firstStop (some e :: l) = some e :=
  rfl

theorem firstStop_cons_eq_none (x : Option Stop) (l : List (Option Stop)) :
    firstStop (x :: l) = none ↔ x = none ∧ firstStop l = none := by
  cases x <;> simp

@[simp] theorem stopIf_true (e : Stop) : stopIf true e = some e := rfl

@[simp] theorem stopIf_false (e : Stop) : stopIf false e = none := rfl

@[simp] theorem stopIf_eq_none (c : Bool) (e : Stop) : stopIf c e = none ↔ c = false := by
  cases c <;> simp [stopIf]

@[simp] theorem Stop.outcome_ne_next (e : Stop) (t : State) : e.outcome ≠ .next t := by
  cases e <;> simp [Stop.outcome, raise]

/-! ## The gate -/

/-- The gate lets a form pass exactly when none of its eight conditions holds. -/
theorem gate_eq_none (s : State) (f : Form) (len : Nat) :
    s.gate f len = none ↔
      s.modeRefused = false ∧ s.pcFits len = true ∧
      (Form.isVexOrEvex f && Mode.isRealOrV86 s.mode) = false ∧
      Form.reported f s.config.features = true ∧ Form.vl f ≤ s.config.maxvl.bits ∧
      s.osEnabledUd f = true ∧ s.cr0TS = false ∧ (f == .mmx && s.fpuPending) = false := by
  simp only [State.gate, firstStop_cons_eq_none, stopIf_eq_none, firstStop_nil, and_true,
    Bool.not_eq_false', decide_eq_false_iff_not, Nat.not_lt]

/-! ## One instruction -/

/-- An instruction completes exactly when the gate lets it pass and its last source has a value. -/
theorem run_eq_next (s : State) (f : Form) (len : Nat) (source : Except Stop VReg) (write : VReg → State)
    (t : State) :
    s.run f len source write = .next t ↔
      s.gate f len = none ∧ ∃ v, source = .ok v ∧ t = (write v).advance len := by
  unfold State.run
  cases s.gate f len with
  | some e => simp
  | none =>
    cases source with
    | error e => simp
    | ok v => simp [eq_comm]

/-- It stops with the first stop of the gate, or with that of its last source. -/
theorem run_of_gate {s : State} {f : Form} {len : Nat} {e : Stop} (h : s.gate f len = some e)
    (source : Except Stop VReg) (write : VReg → State) : s.run f len source write = e.outcome := by
  simp [State.run, h]

theorem run_of_source {s : State} {f : Form} {len : Nat} {e : Stop} (h : s.gate f len = none)
    (write : VReg → State) : s.run f len (.error e) write = e.outcome := by
  simp [State.run, h]

theorem run_of_value {s : State} {f : Form} {len : Nat} {v : VReg} (h : s.gate f len = none)
    (write : VReg → State) : s.run f len (.ok v) write = .next ((write v).advance len) := by
  simp [State.run, h]

/-- Every instruction answers the stop of its form's gate. -/
theorem exec_of_gate {i : Instr} {s : State} {e : Stop} (h : s.gate i.form i.len = some e) :
    exec i s = e.outcome := by
  cases i <;> exact run_of_gate h _ _

/-! ## The memory operand -/

theorem operandStop_eq_none (s : State) (f : Form) (lanes : Nat → Bool) (a : Access) :
    s.operandStop f lanes a = none ↔
      (s.segBase a.seg).toNat % Form.baseAlignment f s.config = 0 ∧
      s.operandAddress a % Form.alignment f s.config = 0 ∧
      (∀ i ∈ s.checkedBytes f lanes, s.answerAt a i = .readable) ∧
      (s.alignmentChecking && decide (s.operandAddress a % Form.bytes f ≠ 0)) = false := by
  simp only [State.operandStop, firstStop_cons_eq_none, stopIf_eq_none, firstStop_nil, and_true,
    decide_eq_false_iff_not, not_not, List.any_eq_false, List.findSome?_eq_none_iff,
    State.alignmentCheckStop, beq_iff_eq]
  constructor
  · rintro ⟨h1, h2, h3, h4, h5, h6, h7⟩
    refine ⟨h1, h2, fun i hi => ?_, h6⟩
    have h3 := h3 i hi
    have h4 := h4 i hi
    have h5 := h5 i hi
    have h7 := h7 i hi
    cases hx : s.answerAt a i <;> simp_all [Answer.segmentStop, State.pageStop]
  · rintro ⟨h1, h2, h3, h6⟩
    refine ⟨h1, h2, fun i hi => ?_, fun i hi => ?_, fun i hi => ?_, h6, fun i hi => ?_⟩ <;>
      simp [h3 i hi, Answer.segmentStop, State.pageStop]

/-- The checked bytes are those of the operand that fault suppression does not leave out (20_memory.md
R59). -/
theorem mem_checkedBytes (s : State) (f : Form) (lanes : Nat → Bool) (i : Nat) :
    i ∈ s.checkedBytes f lanes ↔
      i < Form.bytes f ∧ (s.config.faultSuppression = true → lanes (i / 2) = true) := by
  cases h : s.config.faultSuppression <;> simp [State.checkedBytes, h]

/-- A memory operand with no stop has the bytes that its lanes select. -/
theorem readOperand_of_none {s : State} {f : Form} {lanes : Nat → Bool} {a : Access}
    (h : s.operandStop f lanes a = none) :
    s.readOperand f lanes a =
      .ok (Memory.readSelected s.mem (fun i => lanes (i / 2)) (s.operandAddress a) (Form.bytes f)) := by
  simp [State.readOperand, h]

/-- The last source in memory stops with the operand's stop. -/
theorem source_of_stop {s : State} {f : Form} {lanes : Nat → Bool} {pre : List Prefix} {xb bb : Bool}
    {len : Nat} {m : Mem} {e : Stop} (h : s.operandStop f lanes (s.access f pre xb bb len m) = some e)
    (reg : BitVec 3 → VReg) : s.source f lanes pre xb bb len reg (.mem m) = .error e := by
  simp [State.source, State.readOperand, h]

/-- The last source in memory, with no stop, has the bytes that its lanes select. -/
theorem source_of_none {s : State} {f : Form} {lanes : Nat → Bool} {pre : List Prefix} {xb bb : Bool}
    {len : Nat} {m : Mem} (h : s.operandStop f lanes (s.access f pre xb bb len m) = none)
    (reg : BitVec 3 → VReg) :
    s.source f lanes pre xb bb len reg (.mem m) =
      .ok (Memory.readSelected s.mem (fun i => lanes (i / 2))
        (s.operandAddress (s.access f pre xb bb len m)) (Form.bytes f)) :=
  readOperand_of_none h

/-- Lane j of a memory operand whose lane j is selected: low byte at A + 2j, high byte at A + 2j + 1
(20_memory.md R51). -/
theorem lane_readSelected (m : List Host.Cell) (lanes : Nat → Bool) (a n j : Nat) (hj : j < 32)
    (hn : 2 * j + 1 < n) (hl : lanes j = true) :
    lane (Memory.readSelected m (fun i => lanes (i / 2)) a n) j =
      Memory.read m (a + 2 * j + 1) ++ Memory.read m (a + 2 * j) := by
  ext i hi
  rw [lane, BitVec.getElem_extractLsb', Memory.getLsbD_readSelected _ _ _ _ _ (by omega)]
  have h2 : (16 * j + i) / 8 / 2 = j := by omega
  simp only [h2, hl, Bool.and_true]
  rw [BitVec.getElem_append]
  by_cases h : i < 8
  · have h1 : (16 * j + i) / 8 = 2 * j := by omega
    have h3 : (16 * j + i) % 8 = i := by omega
    simp [h, h1, h3, show 2 * j < n by omega, BitVec.getLsbD_eq_getElem]
  · have h1 : (16 * j + i) / 8 = 2 * j + 1 := by omega
    have h3 : (16 * j + i) % 8 = i - 8 := by omega
    simp [h, h1, h3, hn, Nat.add_assoc, BitVec.getLsbD_eq_getElem (show i - 8 < 8 by omega)]

end Sys2Proof.Machine
end

