-- ==== Sys2Proof/Laws/Ready.lean ====
section
/-! SUPPORT. From the conditions of Safety.lean to the checks of the machine. -/

namespace Sys2Proof.Machine

theorem pcFits_iff (s : State) (len : Nat) :
    s.pcFits len = true ↔ s.pc.toNat + len < if s.mode = .bits64 then 2 ^ 64 else 2 ^ 32 := by
  rw [State.pcFits, decide_eq_true_iff, State.addressTop]
  cases s.mode <;> simp [Mode.addressBits]

theorem xcr0Avx_iff (s : State) :
    s.xcr0Avx = true ↔ s.xcr0.getLsbD 1 = true ∧ s.xcr0.getLsbD 2 = true := by
  have h : ∀ x : BitVec 2, x = 0b11#2 ↔ x.getLsbD 0 = true ∧ x.getLsbD 1 = true := by decide
  simp [State.xcr0Avx, h]

theorem xcr0Avx512_iff (s : State) :
    s.xcr0Avx512 = true ↔
      s.xcr0.getLsbD 5 = true ∧ s.xcr0.getLsbD 6 = true ∧ s.xcr0.getLsbD 7 = true := by
  have h : ∀ x : BitVec 3, x = 0b111#3 ↔
      x.getLsbD 0 = true ∧ x.getLsbD 1 = true ∧ x.getLsbD 2 = true := by decide
  simp [State.xcr0Avx512, h]

theorem modeRefused_eq_false (s : State) :
    s.modeRefused = false ↔ s.mode = .bits64 ∨ s.mode = .prot32 ∨ s.config.otherModes = true := by
  unfold State.modeRefused
  cases s.mode <;> simp [modeInScope]

/-- A ready form passes the gate. -/
theorem gate_of_ready {f : Form} {len : Nat} {s : State} (h : Ready f len s) : s.gate f len = none := by
  rw [gate_eq_none, modeRefused_eq_false, pcFits_iff]
  refine ⟨h.mode, h.pcBelowTop, ?_, ?_, h.width, ?_, h.ts, ?_⟩
  · have := h.protectedMode
    cases f <;> simp_all [Form.isVexOrEvex] <;> cases hm : s.mode <;> simp_all [Mode.isRealOrV86]
  · obtain ⟨-, -, -, h1, h2, h3, h4, h5, -, -, -, -, -, -, -, -⟩ := h
    cases f <;> simp_all [Form.reported]
  · obtain ⟨-, -, -, -, -, -, -, -, -, h1, -, h2, h3, h4, h5, -⟩ := h
    cases f <;> simp_all [State.osEnabledUd, xcr0Avx_iff, xcr0Avx512_iff, State.cr0EM, State.osfxsr,
      State.osxsave]
  · have := h.noPending
    cases f <;> simp_all

/-- A ready memory operand passes its checks. -/
theorem operandStop_of_ready {f : Form} {lanes : Nat → Bool} {a : Access} {s : State}
    (h : OperandReady f lanes a s) : s.operandStop f lanes a = none := by
  rw [operandStop_eq_none]
  refine ⟨h.segmentBase, h.aligned, fun i hi => ?_, ?_⟩
  · obtain ⟨h1, h2⟩ := (mem_checkedBytes s f lanes i).1 hi
    exact h.readable i h1 h2
  · have := h.alignmentCheck
    cases hc : s.alignmentChecking <;> simp_all

end Sys2Proof.Machine
end

