-- ==== Sys2Proof/Laws/Step.lean ====
section
/-! SUPPORT. What a step can do, and what fetching reads. -/

namespace Sys2Proof.Machine

theorem decodeFailure_ne_next (w : FetchEnd) (e : DecodeError) (t : State) : decodeFailure w e ≠ .next t := by
  cases e <;> simp [decodeFailure, raise]
  cases w <;> simp

/-- A step that answers a next state ran the instruction that the fetched bytes decode to. -/
theorem step_eq_next (s t : State) :
    step s = .next t ↔
      s.modeRefused = false ∧ ∃ i rest, decode s.mode s.fetchWindow.1 = .ok (i, rest) ∧ exec i s = .next t := by
  unfold step
  cases hm : s.modeRefused
  · cases hd : decode s.mode s.fetchWindow.1 with
    | ok r =>
      obtain ⟨i, rest⟩ := r
      simp
    | error e => simp [decodeFailure_ne_next]
  · simp

/-- A step whose fetched bytes decode to no instruction answers as `decodeFailure` says. -/
theorem step_of_decode_error {s : State} {e : DecodeError} (hm : s.modeRefused = false)
    (h : decode s.mode s.fetchWindow.1 = .error e) : step s = decodeFailure s.fetchWindow.2 e := by
  simp [step, hm, h]

/-- Where every byte can be fetched, fetching gives the bytes of memory. -/
theorem fetchFrom_of_readable (s : State) (a n : Nat)
    (h : ∀ i < n, s.translate .fetch .cs (a + i) = .readable) :
    s.fetchFrom a n = ((List.range n).map (fun i => Memory.read s.mem (a + i)), .limit) := by
  induction n generalizing a with
  | zero => rfl
  | succ n ih =>
    have h0 : s.translate .fetch .cs a = .readable := h 0 (by omega)
    have hi := ih (a + 1) fun i hi => by rw [Nat.add_assoc, Nat.add_comm 1]; exact h (i + 1) (by omega)
    rw [State.fetchFrom, h0]
    simp only [State.fetchStop, hi, List.range_succ_eq_map, List.map_cons, List.map_map]
    congr 2
    refine List.map_congr_left fun i _ => ?_
    simp only [Function.comp]
    congr 1
    omega

end Sys2Proof.Machine
end

