-- ==== Sys2Proof/Tests/Slice0.lean ====
section
/-! SUPPORT. Tests: words of the spec decoded, ill-formed terms refused, single steps with the results of
95_test_vectors.md, and for every statement with hypotheses a state and operands that meet them. -/

namespace Sys2Proof.Tests

open Sys2Proof.Machine

/-! ## Helpers -/

/-- A vector register from its lanes, lane 0 first. -/
def lanes (l : List Nat) : VReg := ofLanes (fun j => BitVec.ofNat 16 (l.getD j 0)) l.length

/-- The first `n` lanes of a vector register. -/
def lanesOf (n : Nat) (v : VReg) : List Nat := (List.range n).map fun j => (lane v j).toNat

/-- `n` lanes `f 0`, `f 1`, ... -/
def table (n : Nat) (f : Nat → Nat) : List Nat := (List.range n).map f

/-- The state of 95_test_vectors.md's opening paragraph: 64-bit mode, everything enabled; `pc` = 0x1000. -/
def base : State := { State.reset.booted with pc := 0x1000 }

/-- `base` with vector registers 0, 1 and 2 set. -/
def withVectors (a b c : VReg) : State :=
  { base with vec := ((base.vec.set 0 a).set 1 b).set 2 c }

/-- `base` with an opmask register set. -/
def withMask (s : State) (n : Fin 8) (k : BitVec 64) : State := { s with k := s.k.set n k }

/-- What one step from a state makes of the bytes at `pc`. -/
def stepOn (s : State) (bytes : List Byte) : Outcome := step (s.loadAtPc bytes)

/-- A view of the next state, if there is one. -/
def view {α : Type} (f : State → α) : Outcome → Option α
  | .next t => some (f t)
  | .fault _ => none
  | .refused _ => none

theorem exists_next {o : Outcome} (h : (view State.pc o).isSome = true) : ∃ t, o = .next t := by
  cases o with
  | next t => exact ⟨t, rfl⟩
  | fault f => simp [view] at h
  | refused r => simp [view] at h

/-- The fault an outcome is, if it is one. -/
def faultOf : Outcome → Option Fault
  | .fault f => some f
  | .next _ => none
  | .refused _ => none

/-! ## Ill-formed terms are refused -/

/-- 30_encoding.md R90: a LOCK prefix on a legacy form. -/
theorem test_illFormed_lock : (Instr.pmulhrswMm [.lock] 0 (.reg 0)).wf .bits64 = false := by decide

/-- R74: a REX prefix outside 64-bit mode. -/
theorem test_illFormed_rex :
    (Instr.pmulhrswMm [.rex ⟨false, false, false, false⟩] 0 (.reg 0)).wf .prot32 = false := by decide

/-- R73: F-MMX with 66, and F-SSE without. -/
theorem test_illFormed_opSize :
    (Instr.pmulhrswMm [.opSize] 0 (.reg 0)).wf .bits64 = false ∧
    (Instr.pmulhrswXmm [] 0 (.reg 0)).wf .bits64 = false := by decide

/-- R91, R92: 66 before VEX, REX before EVEX. -/
theorem test_illFormed_beforeVex :
    (Instr.vpmulhrswVex128 [.opSize] ⟨false, false, false, false, 0⟩ 0 (.reg 0)).wf .bits64 = false ∧
    (Instr.vpmulhrswEvex128 [.rex ⟨false, false, false, false⟩]
      ⟨false, false, false, false, false, 0, false, false, 0⟩ 0 (.reg 0)).wf .bits64 = false := by decide

/-- R75, R77: registers above 7 outside 64-bit mode. -/
theorem test_illFormed_extension :
    (Instr.vpmulhrswVex256 [] ⟨false, false, false, false, 8⟩ 0 (.reg 0)).wf .prot32 = false ∧
    (Instr.vpmulhrswEvex256 [] ⟨false, false, false, true, false, 0, false, false, 0⟩ 0 (.reg 0)).wf .prot32
      = false := by decide

/-- R92: zeroing without a writemask. -/
theorem test_illFormed_zeroing :
    (Instr.vpmulhrswEvex512 [] ⟨false, false, false, false, false, 0, true, false, 0⟩ 0 (.reg 0)).wf .bits64
      = false := by decide

/-- R80, R81, R84: memory operands that ModRM spells otherwise. -/
theorem test_illFormed_memory :
    (RM.mem (.base 4 .none)).wf false = false ∧ (RM.mem (.base 5 .none)).wf false = false ∧
    (RM.mem (.sib 0 0 5 .none)).wf false = false ∧ (RM.mem (.base16 6 .none)).wf true = false ∧
    (RM.mem (.base 0 .none)).wf true = false ∧ (RM.mem (.base16 0 .none)).wf false = false := by decide

/-- R72: 16 bytes. -/
theorem test_illFormed_length :
    (Instr.pmulhrswMm (List.replicate 12 (.seg .ds)) 0 (.reg 0)).wf .bits64 = false ∧
    (Instr.pmulhrswMm (List.replicate 11 (.seg .ds)) 0 (.reg 0)).wf .bits64 = true := by decide

/-! ## Decoding: words of 95_test_vectors.md -/

theorem test_decode_mmx : decode .bits64 [0x0F, 0x38, 0x0B, 0x18] =
    .ok (.pmulhrswMm [] 3 (.mem (.base 0 .none)), []) := by decide

/-- Section 3.2: `[r12+rcx*4+0x100]`. -/
theorem test_decode_sse_sib :
    decode .bits64 [0x66, 0x45, 0x0F, 0x38, 0x0B, 0x94, 0x8C, 0x00, 0x01, 0x00, 0x00] =
      .ok (.pmulhrswXmm [.opSize, .rex ⟨false, true, false, true⟩] 2 (.mem (.sib 2 1 4 (.d32 0x100))), []) := by
  decide

/-- Program 4, first instruction. -/
theorem test_decode_vex256_sib : decode .bits64 [0xC4, 0xE2, 0x4D, 0x0B, 0x6C, 0x7E, 0xE0] =
    .ok (.vpmulhrswVex256 [] ⟨false, false, false, false, 6⟩ 5 (.mem (.sib 1 7 6 (.d8 0xE0))), []) := by decide

theorem test_decode_vex128 : decode .bits64 [0xC4, 0xE2, 0x59, 0x0B, 0x18] =
    .ok (.vpmulhrswVex128 [] ⟨false, false, false, false, 4⟩ 3 (.mem (.base 0 .none)), []) := by decide

/-- Program 4, second instruction. -/
theorem test_decode_evex128 : decode .bits64 [0x62, 0xC2, 0x75, 0x03, 0x0B, 0x40, 0x01] =
    .ok (.vpmulhrswEvex128 [] ⟨false, false, true, true, false, 1, false, true, 3⟩ 0
      (.mem (.base 0 (.d8 1))), []) := by decide

theorem test_decode_evex256 : decode .bits64 [0x62, 0xA2, 0x75, 0x20, 0x0B, 0xC2] =
    .ok (.vpmulhrswEvex256 [] ⟨false, true, false, true, false, 1, false, true, 0⟩ 0 (.reg 2), []) := by decide

theorem test_decode_evex512 : decode .bits64 [0x62, 0x02, 0x0D, 0x40, 0x0B, 0xFD] =
    .ok (.vpmulhrswEvex512 [] ⟨true, true, true, true, false, 14, false, true, 0⟩ 7 (.reg 5), []) := by decide

/-- Section 3: every encoding it lists as #UD. -/
theorem test_decode_invalid :
    ([[0xF0, 0x0F, 0x38, 0x0B, 0x18], [0xF3, 0x0F, 0x38, 0x0B, 0xC1], [0x66, 0xF2, 0x0F, 0x38, 0x0B, 0xC1],
      [0xC4, 0xE2, 0x70, 0x0B, 0xC2], [0x66, 0xC4, 0xE2, 0x71, 0x0B, 0xC2],
      [0x62, 0xF2, 0x75, 0x88, 0x0B, 0xC2], [0x62, 0xF2, 0x75, 0x18, 0x0B, 0xC2],
      [0x62, 0xF2, 0x75, 0x18, 0x0B, 0x00], [0x62, 0xF2, 0x75, 0x68, 0x0B, 0xC2],
      [0x62, 0xF6, 0x75, 0x48, 0x0B, 0xC2], [0x62, 0xFA, 0x75, 0x48, 0x0B, 0xC2],
      [0x62, 0xF2, 0x71, 0x48, 0x0B, 0xC2], [0x66, 0x62, 0xF2, 0x75, 0x08, 0x0B, 0xC2]] : List (List Byte)).all
      (fun b => decode .bits64 b == .error .invalid) = true := by decide

/-- 30_encoding.md R94: another instruction. -/
theorem test_decode_notThis : decode .bits64 [0x0F, 0x38, 0x04, 0xC1] = .error .notThis := by decide

/-- R71, R94, D13: segment overrides may stand in any number and order; in the register form they name nothing. -/
theorem test_segmentOverrides :
    decode .bits64 [0x26, 0x2E, 0x0F, 0x38, 0x0B, 0xC1] = .ok (.pmulhrswMm [.seg .es, .seg .cs] 0 (.reg 1), []) ∧
    (Instr.pmulhrswMm [.seg .es, .seg .cs] 0 (.reg 1)).wf .bits64 = true ∧
    view State.pc (stepOn base [0x26, 0x2E, 0x0F, 0x38, 0x0B, 0xC1]) = some 0x1006 := by decide +kernel

/-- R84: in 32-bit mode prefix 67 chooses 16-bit addressing. -/
theorem test_decode_addr16 : decode .prot32 [0x67, 0x0F, 0x38, 0x0B, 0x0E, 0x34, 0x12] =
    .ok (.pmulhrswMm [.addrSize] 1 (.mem (.disp16 0x1234)), []) := by decide

/-! ## The lane function: section 2 of 95_test_vectors.md -/

theorem test_mulhrs16_rows :
    mulhrs16 0x1234 0x5678 = 0x0C4C ∧ mulhrs16 0x8000 0x8000 = 0x8000 ∧ mulhrs16 0x7FFF 0x8000 = 0x8001 ∧
    mulhrs16 0x7FFF 0x7FFF = 0x7FFE ∧ mulhrs16 0x0001 0x4000 = 0x0001 ∧ mulhrs16 0xFFFF 0x4000 = 0x0000 := by
  decide

theorem test_mulhrs16_pairs :
    mulhrs16 0xEDCC 0x5678 = 0xF3B4 ∧ mulhrs16 0xA57E 0x5A82 = 0xC001 ∧ mulhrs16 0xFF00 0x0080 = 0xFFFF ∧
    mulhrs16 0xA000 0x0100 = 0xFF40 ∧ mulhrs16 0x0003 0x6000 = 0x0002 ∧ mulhrs16 0x7FFE 0x7FFE = 0x7FFC := by
  decide

/-! ## Single steps: section 3 of 95_test_vectors.md -/

/-- `base` with MM0 and MM1 as in the first row of section 3.1. -/
def mmxStart : State :=
  { base with x87 := (base.x87.set 0 0x80007FFF40000001).set 1 0x80007FFF40004000 }

/-- Section 3.1, first row, with the x87 effects of 10_state.md R22. -/
theorem test_mmx_register :
    view (fun t => (t.mm 0, t.x87[0], t.x87[1], t.fpuTag, t.fpuTop, t.pc))
      (stepOn mmxStart [0x0F, 0x38, 0x0B, 0xC1]) =
    some (0x80007FFE20000001, 0xFFFF80007FFE20000001, 0x80007FFF40004000, 0, 0, 0x1004) := by decide +kernel

/-- Section 3.1, third row: an odd address. -/
theorem test_mmx_memory :
    view (fun t => (t.mm 3, t.pc))
      (stepOn { base with
          x87 := base.x87.set 3 0x4000400040004000, gpr := base.gpr.set 0 0x2001,
          mem := Memory.writeBytes [] 0x2001 [0x01, 0x00, 0xFF, 0xFF, 0x00, 0x80, 0xFF, 0x7F] }
        [0x0F, 0x38, 0x0B, 0x18]) =
    some (0x4000C00000000001, 0x1004) := by decide +kernel

/-- Section 3.2, first row; the upper bits are kept. -/
theorem test_sse_register :
    view (fun t => (lanesOf 9 (t.v 0), t.pc))
      (stepOn (withVectors (lanes [0x0001, 0x4000, 0x7FFF, 0x8000, 0x1234, 0xEDCC, 0x0003, 0x0100, 0xABCD])
        (lanes [0x4000, 0x4000, 0x7FFF, 0x8000, 0x5678, 0x5678, 0x6000, 0x0100]) 0)
        [0x66, 0x0F, 0x38, 0x0B, 0xC1]) =
    some ([0x0001, 0x2000, 0x7FFE, 0x8000, 0x0C4C, 0xF3B4, 0x0002, 0x0002, 0xABCD], 0x1005) := by
  decide +kernel

/-- Section 3.2, sixth row: `[rip+0x10]` at pc = 0x33 is misaligned, at pc = 0x37 it is not. -/
theorem test_sse_rip :
    faultOf (stepOn { base with pc := 0x33 } [0x66, 0x0F, 0x38, 0x0B, 0x2D, 0x10, 0x00, 0x00, 0x00])
      = some .generalProtection ∧
    view State.pc (stepOn { base with pc := 0x37 } [0x66, 0x0F, 0x38, 0x0B, 0x2D, 0x10, 0x00, 0x00, 0x00])
      = some 0x40 := by decide +kernel

/-- Section 3.3, first row; the bits above become 0. -/
theorem test_vex128 :
    view (fun t => (lanesOf 32 (t.v 0), t.pc))
      (stepOn (withVectors (BitVec.allOnes 512) (lanes (table 8 fun _ => 0x4000))
        (lanes (table 8 fun j => 0x100 * (j + 1)))) [0xC4, 0xE2, 0x71, 0x0B, 0xC2]) =
    some (table 32 fun j => if j < 8 then 0x80 * (j + 1) else 0, 0x1005) := by decide +kernel

/-- Section 3.3, the lane 10 check (90_conflicts.md C3). -/
theorem test_vex256_lane10 :
    view (fun t => lanesOf 32 (t.v 0))
      (stepOn (withVectors (BitVec.allOnes 512) (lanes (table 16 fun _ => 0x4000))
        (lanes (table 11 fun j => if j = 10 then 0xB00 else 0))) [0xC4, 0xE2, 0x75, 0x0B, 0xC2]) =
    some (table 32 fun j => if j = 10 then 0x580 else 0) := by decide +kernel

/-- The common data of section 3.4. -/
def evexStart : State :=
  withVectors (lanes (table 32 fun j => 0xDD00 + j)) (lanes (table 32 fun _ => 0x4000))
    (lanes (table 32 fun j => 0x100 * (j + 1)))

/-- Section 3.4, second row: merging. -/
theorem test_evex128_merging :
    view (fun t => (lanesOf 32 (t.v 0), t.pc))
      (stepOn (withMask evexStart 1 0xFF0F) [0x62, 0xF2, 0x75, 0x09, 0x0B, 0xC2]) =
    some (table 32 fun j => if j < 4 then 0x80 * (j + 1) else if j < 8 then 0xDD00 + j else 0, 0x1006) := by
  decide +kernel

/-- Section 3.4, fifth row: zeroing. -/
theorem test_evex256_zeroing :
    view (fun t => lanesOf 32 (t.v 0))
      (stepOn (withMask evexStart 2 0xF00F) [0x62, 0xF2, 0x75, 0xAA, 0x0B, 0xC2]) =
    some (table 32 fun j => if j < 4 ∨ (12 ≤ j ∧ j < 16) then 0x80 * (j + 1) else 0) := by decide +kernel

/-- Section 3.4, seventh row. -/
theorem test_evex512_merging :
    view (fun t => lanesOf 32 (t.v 0))
      (stepOn (withMask evexStart 1 0xA5A5F00F) [0x62, 0xF2, 0x75, 0x49, 0x0B, 0xC2]) =
    some (table 32 fun j =>
      if j ∈ [0, 1, 2, 3, 12, 13, 14, 15, 16, 18, 21, 23, 24, 26, 29, 31] then 0x80 * (j + 1)
      else 0xDD00 + j) := by decide +kernel

/-- `evexStart` with rax = 0x2000 and the bytes from 0x2020 on not readable. -/
def suppressStart : State :=
  { evexStart with
    gpr := evexStart.gpr.set 0 0x2000, regions := [⟨0x2020, 0x1000, .read, .pf ⟨true, false, false, false⟩⟩] }

/-- Section 3.4, fault suppression: 62 F2 75 49 0B 00, its first three rows. -/
theorem test_evex512_faultSuppression :
    faultOf (stepOn suppressStart [0x62, 0xF2, 0x75, 0x48, 0x0B, 0x00]) = some (.pageFault 1 0x2020) ∧
    (view State.pc (stepOn (withMask suppressStart 1 0xFFFF) [0x62, 0xF2, 0x75, 0x49, 0x0B, 0x00])
      = some 0x1006) ∧
    faultOf (stepOn (withMask suppressStart 1 0x1FFFF) [0x62, 0xF2, 0x75, 0x49, 0x0B, 0x00])
      = some (.pageFault 1 0x2020) := by decide +kernel

/-! ## Witnesses: states and operands that meet the hypotheses of the statements -/

/-- The memory operand `[0x100]`, without a base or an index. -/
def at100 : RM := .mem (.sibDisp32 0 4 0x100)

/-- Every form is ready in `base`, at every length. -/
theorem ready_base (f : Form) (len : Nat) (h : len ≤ 15) : Ready f len base where
  mode := .inl (by decide)
  protectedMode _ _ := by decide
  pcBelowTop := by
    have h1 : base.pc.toNat = 0x1000 := by decide
    rw [if_pos (by decide), h1]
    omega
  ssse3 _ := by decide
  avx _ := by decide
  avx2 _ := by decide
  avx512bw _ := by decide
  avx512vl _ := by decide
  width := by cases f <;> decide
  em _ := by decide
  ts := by decide
  osfxsr _ := by decide
  osxsave _ _ := by decide
  xcr0Avx _ _ := by decide
  xcr0Avx512 _ := by decide
  noPending _ := by decide

/-- Other registers, memory and translation change nothing about that. -/
theorem ready_other {s : State} (f : Form) (len : Nat) (h : len ≤ 15)
    (hs : s = { base with
      gpr := s.gpr, x87 := s.x87, vec := s.vec, k := s.k, seg := s.seg, cpl := s.cpl, rflags := s.rflags,
      regions := s.regions, mem := s.mem }) : Ready f len s := by
  have b := ready_base f len h
  rw [hs]
  exact ⟨b.mode, b.protectedMode, b.pcBelowTop, b.ssse3, b.avx, b.avx2, b.avx512bw, b.avx512vl, b.width,
    b.em, b.ts, b.osfxsr, b.osxsave, b.xcr0Avx, b.xcr0Avx512, b.noPending⟩

/-- The bytes from 0x100 on are readable in `base`. -/
theorem readable_base : ∀ i < 64, base.answerAt ⟨.ds, 0x100⟩ i = .readable := by decide

/-- The operand `[0x100]` is ready in `base` for every form and every mask. -/
theorem source_base (f : Form) (l : Nat → Bool) (len : Nat) :
    SourceReady f l [] false false len at100 base := by
  intro m hm
  have ha : base.access f [] false false len m = ⟨.ds, 0x100⟩ := by
    rw [← RM.mem.inj hm]
    rfl
  rw [ha]
  refine ⟨by cases f <;> decide, by cases f <;> decide, fun h => absurd h (by decide), fun i hi _ => ?_⟩
  exact readable_base i (Nat.lt_of_lt_of_le hi (by cases f <;> decide))

/-- A register source is always ready. -/
theorem source_register (f : Form) (l : Nat → Bool) (pre : List Prefix) (xb bb : Bool) (len : Nat)
    (r : BitVec 3) (s : State) : SourceReady f l pre xb bb len (.reg r) s := by
  intro m hm
  exact absurd hm (by simp)

/-- No extension bit, vvvv = 1. -/
def vex1 : Vex := ⟨false, false, false, false, 1⟩

/-- No extension bit, vvvv = 1, writemask K1 or none, merging or zeroing. -/
def evex1 (z : Bool) (aaa : BitVec 3) : Evex := ⟨false, false, false, false, false, 1, z, false, aaa⟩

/-- The statements about the lane function: the largest quotient that fits, the smallest, and a pair other than
the one that overflows. -/
theorem witness_lane :
    ((0x8000#16).toInt * (0x8001#16).toInt + 16384) / 32768 = 32767 ∧
    ((0x8000#16).toInt * (0x7FFF#16).toInt + 16384) / 32768 = -32767 ∧
    ¬((0x8000#16) = 0x8000 ∧ (0x8001#16) = (0x8000 : Lane)) := by decide

/-- `FlagsAreNeitherReadNorWritten`: every flag but EFLAGS.AC different. -/
theorem witness_flags : (~~~base.rflags &&& ~~~0x40000).getLsbD 18 = base.rflags.getLsbD 18 := by decide

/-- `MmxFormMultipliesFourLanes`: memory and register form. -/
theorem witness_mmxForm :
    (Ready .mmx (Instr.pmulhrswMm [] 3 at100).len base ∧
      SourceReady .mmx allLanes [] (effectiveRex []).x (effectiveRex []).b
        (Instr.pmulhrswMm [] 3 at100).len at100 base) ∧
    (Ready .mmx (Instr.pmulhrswMm [] 7 (.reg 7)).len base ∧
      SourceReady .mmx allLanes [] (effectiveRex []).x (effectiveRex []).b
        (Instr.pmulhrswMm [] 7 (.reg 7)).len (.reg 7) base) :=
  ⟨⟨ready_base _ _ (by decide), source_base _ _ _⟩,
    ⟨ready_base _ _ (by decide), source_register _ _ _ _ _ _ _ _⟩⟩

/-- `SseFormMultipliesEightLanesAndKeepsTheUpperBits`: memory form, and register form with REX. -/
theorem witness_sseForm :
    (Ready .sse (Instr.pmulhrswXmm [] 3 at100).len base ∧
      SourceReady .sse allLanes [] (effectiveRex []).x (effectiveRex []).b
        (Instr.pmulhrswXmm [] 3 at100).len at100 base) ∧
    (Ready .sse (Instr.pmulhrswXmm [.opSize, .rex ⟨true, true, true, true⟩] 7 (.reg 7)).len base ∧
      SourceReady .sse allLanes [.opSize, .rex ⟨true, true, true, true⟩] true true
        (Instr.pmulhrswXmm [.opSize, .rex ⟨true, true, true, true⟩] 7 (.reg 7)).len (.reg 7) base) :=
  ⟨⟨ready_base _ _ (by decide), source_base _ _ _⟩,
    ⟨ready_base _ _ (by decide), source_register _ _ _ _ _ _ _ _⟩⟩

/-- `Vex128FormMultipliesEightLanesAndZeroesTheRest`. -/
theorem witness_vex128Form :
    Ready .vex128 (Instr.vpmulhrswVex128 [] vex1 0 at100).len base ∧
    SourceReady .vex128 allLanes [] vex1.x vex1.b (Instr.vpmulhrswVex128 [] vex1 0 at100).len at100 base :=
  ⟨ready_base _ _ (by decide), source_base _ _ _⟩

/-- `Vex256FormMultipliesSixteenLanesAndZeroesTheRest`. -/
theorem witness_vex256Form :
    Ready .vex256 (Instr.vpmulhrswVex256 [] vex1 0 at100).len base ∧
    SourceReady .vex256 allLanes [] vex1.x vex1.b (Instr.vpmulhrswVex256 [] vex1 0 at100).len at100 base :=
  ⟨ready_base _ _ (by decide), source_base _ _ _⟩

/-- `Evex128FormMultipliesTheLanesOfItsMask`: with a writemask, zeroing, and without one. -/
theorem witness_evex128Form : ∀ e ∈ [evex1 true 1, evex1 false 1, evex1 false 0],
    Ready .evex128 (Instr.vpmulhrswEvex128 [] e 0 at100).len base ∧
    SourceReady .evex128 (fun j => e.aaa == 0 || (base.opmask e.aaa).getLsbD j) [] e.x e.b
      (Instr.vpmulhrswEvex128 [] e 0 at100).len at100 base := by
  intro e he
  simp only [List.mem_cons, List.not_mem_nil, or_false] at he
  rcases he with rfl | rfl | rfl <;> exact ⟨ready_base _ _ (by decide), source_base _ _ _⟩

/-- `Evex256FormMultipliesTheLanesOfItsMask`. -/
theorem witness_evex256Form : ∀ e ∈ [evex1 true 1, evex1 false 1, evex1 false 0],
    Ready .evex256 (Instr.vpmulhrswEvex256 [] e 0 at100).len base ∧
    SourceReady .evex256 (fun j => e.aaa == 0 || (base.opmask e.aaa).getLsbD j) [] e.x e.b
      (Instr.vpmulhrswEvex256 [] e 0 at100).len at100 base := by
  intro e he
  simp only [List.mem_cons, List.not_mem_nil, or_false] at he
  rcases he with rfl | rfl | rfl <;> exact ⟨ready_base _ _ (by decide), source_base _ _ _⟩

/-- `Evex512FormMultipliesTheLanesOfItsMask`. -/
theorem witness_evex512Form : ∀ e ∈ [evex1 true 1, evex1 false 1, evex1 false 0],
    Ready .evex512 (Instr.vpmulhrswEvex512 [] e 0 at100).len base ∧
    SourceReady .evex512 (fun j => e.aaa == 0 || (base.opmask e.aaa).getLsbD j) [] e.x e.b
      (Instr.vpmulhrswEvex512 [] e 0 at100).len at100 base := by
  intro e he
  simp only [List.mem_cons, List.not_mem_nil, or_false] at he
  rcases he with rfl | rfl | rfl <;> exact ⟨ready_base _ _ (by decide), source_base _ _ _⟩

/-- `EveryInstructionLeavesTheRestUnchanged`: every constructor completes somewhere. -/
theorem witness_completes : ∀ i ∈ [Instr.pmulhrswMm [] 0 at100, .pmulhrswXmm [] 0 at100,
      .vpmulhrswVex128 [] vex1 0 at100, .vpmulhrswVex256 [] vex1 0 at100,
      .vpmulhrswEvex128 [] (evex1 true 1) 0 at100, .vpmulhrswEvex256 [] (evex1 true 1) 0 at100,
      .vpmulhrswEvex512 [] (evex1 true 1) 0 at100], ∃ t, exec i base = .next t := by
  intro i hi
  simp only [List.mem_cons, List.not_mem_nil, or_false] at hi
  rcases hi with rfl | rfl | rfl | rfl | rfl | rfl | rfl <;>
    exact exists_next (by decide +kernel)

/-- `base` with PMULHRSW mm0, mm1 at `pc`. -/
def placed : State := base.loadAtPc [0x0F, 0x38, 0x0B, 0xC1]

theorem placed_decodes : ∃ rest,
    decode placed.mode placed.fetchWindow.1 = .ok (.pmulhrswMm [] 0 (.reg 1), rest) :=
  ⟨List.replicate 11 0, by decide +kernel⟩

/-- `StepAdvancesPcByTheLength`, `StepKeepsTheStateSound`. -/
theorem witness_step : Inv placed ∧ ∃ t, step placed = .next t := by
  refine ⟨⟨Memory.writeBytes_wf _ _ Memory.wf_nil, ?_, fun h => absurd ?_ h⟩, ?_⟩
  · intro n
    have h : placed.v n = 0 := by simp [State.v, placed, base, State.booted, State.reset, State.loadAtPc]
    rw [h]
    exact (0 : VReg).isLt
  · decide
  · exact exists_next (by decide +kernel)

/-- `base` with a segment base of FS that is not a multiple of 16. -/
def fs8 : State := { base with seg := base.seg.set 4 ⟨0, 8⟩ }

/-- `SseMisalignedOperandFaults`: the nearest addresses to a multiple of 16, and a segment base. -/
theorem witness_sseMisaligned :
    (∀ d ∈ [0x101#32, 0x108#32, 0x10F#32],
      Ready .sse (Instr.pmulhrswXmm [] 0 (.mem (.sibDisp32 0 4 d))).len base ∧
      (base.segBase (segmentOf base.mode [] (effectiveRex []).b (.sibDisp32 0 4 d))).toNat % 16 = 0 ∧
      base.operandAddress (base.access .sse [] (effectiveRex []).x (effectiveRex []).b
        (Instr.pmulhrswXmm [] 0 (.mem (.sibDisp32 0 4 d))).len (.sibDisp32 0 4 d)) % 16 ≠ 0) ∧
    (Ready .sse (Instr.pmulhrswXmm [.seg .fs] 0 at100).len fs8 ∧
      (fs8.segBase (segmentOf fs8.mode [.seg .fs] (effectiveRex [.seg .fs]).b (.sibDisp32 0 4 0x100))).toNat % 16
        ≠ 0) := by
  refine ⟨fun d hd => ⟨ready_base _ 9 (by decide), ?_⟩, ready_other _ _ (by decide) rfl, by decide⟩
  simp only [List.mem_cons, List.not_mem_nil, or_false] at hd
  rcases hd with rfl | rfl | rfl <;> decide

/-- `base` with no feature reported, and with the narrowest registers. -/
def bare : State := { base with config := { base.config with features := ⟨false, false, false, false, false⟩ } }

def narrow : State := { base with config := { base.config with maxvl := .w128 } }

/-- `MissingFeatureIsInvalidOpcode`: each clause. -/
theorem witness_missingFeature :
    (bare.mode = .bits64 ∧ bare.pc.toNat + 15 < 2 ^ 64) ∧
    (bare.config.features.ssse3 = false ∧ bare.config.features.avx = false ∧
      bare.config.features.avx2 = false ∧ bare.config.features.avx512vl = false ∧
      bare.config.features.avx512bw = false) ∧
    (narrow.mode = .bits64 ∧ narrow.pc.toNat + 15 < 2 ^ 64 ∧ narrow.config.maxvl = .w128 ∧
      narrow.config.maxvl ≠ .w512) := by decide

/-- `base` with CR0.EM = 1 and no extended state enabled. -/
def disabled : State := { base with cr0 := 4, cr4 := 0, xcr0 := 1 }

/-- `DisabledStateIsInvalidOpcode`: each clause. -/
theorem witness_disabledState :
    disabled.mode = .bits64 ∧ disabled.pc.toNat + 15 < 2 ^ 64 ∧ disabled.cr0.getLsbD 2 = true ∧
    disabled.cr4.getLsbD 9 = false ∧ disabled.cr4.getLsbD 18 = false ∧ disabled.xcr0.getLsbD 1 = false ∧
    disabled.xcr0.getLsbD 2 = false ∧ disabled.xcr0.getLsbD 5 = false ∧ disabled.xcr0.getLsbD 6 = false ∧
    disabled.xcr0.getLsbD 7 = false := by decide

/-- `TaskSwitchedAndPendingX87Fault`: `base` is ready for each form, and a form other than F-MMX completes. -/
theorem witness_taskSwitched :
    (∀ f : Form, Ready f 15 base) ∧
    (∀ pre reg rm, Instr.pmulhrswXmm [] 0 (.reg 1) ≠ .pmulhrswMm pre reg rm) ∧
    ∃ t, exec (.pmulhrswXmm [] 0 (.reg 1)) base = .next t :=
  ⟨fun f => ready_base f 15 (by decide), by simp,
    exists_next (by decide +kernel)⟩

/-- The reset state in another mode, with and without `otherModes`. -/
def inMode (b : BaseMode) (other : Bool) : State :=
  { State.reset with baseMode := b, config := { State.reset.config with otherModes := other } }

/-- `OtherModesRefuseOrRaiseInvalidOpcode`: each clause. -/
theorem witness_otherModes :
    (inMode .real true).mode = .real ∧ (inMode .v86 true).mode = .v86 ∧
    (inMode .real true).config.otherModes = true ∧ (inMode .v86 true).config.otherModes = true ∧
    (inMode .v86 true).pc.toNat + 15 < 2 ^ 32 ∧ (inMode .real false).mode = .real ∧
    (inMode .v86 false).mode = .v86 ∧ (inMode .prot16 false).mode = .prot16 ∧
    (inMode .prot16 false).config.otherModes = false := by decide

/-- `base` at privilege level 3 with alignment checking on. -/
def checking : State := { base with cr0 := base.cr0 ||| 0x40000, rflags := 0x40002, cpl := 3 }

/-- A page from 0x104 on that is not readable. -/
def pageAt104 (s : State) : State :=
  { s with regions := [⟨0x104, 0x1000, .read, .pf ⟨true, false, true, false⟩⟩] }

theorem readable_or_pf {s : State} {f : Form} {a : Access} {p : PageInfo}
    (h : ∀ k ∈ s.checkedBytes f allLanes, s.answerAt a k = .readable ∨ s.answerAt a k = .pf p) :
    ∀ k ∈ s.checkedBytes f allLanes, s.answerAt a k = .readable ∨ ∃ p, s.answerAt a k = .pf p :=
  fun k hk => (h k hk).imp id fun e => ⟨_, e⟩

/-- `PageFaultIsForTheLowestCheckedByte`: an operand of F-MMX at 0x100, its byte 4, with alignment checking off and
on. -/
theorem witness_pageFault : ∀ s ∈ [pageAt104 base, pageAt104 checking],
    (s.alignmentChecking = true → s.operandAddress ⟨.ds, 0x100⟩ % Form.bytes .mmx = 0) ∧
    (s.segBase .ds).toNat % Form.baseAlignment .mmx s.config = 0 ∧
    s.operandAddress ⟨.ds, 0x100⟩ % Form.alignment .mmx s.config = 0 ∧
    (∀ k ∈ s.checkedBytes .mmx allLanes, s.answerAt ⟨.ds, 0x100⟩ k = .readable ∨
      ∃ p, s.answerAt ⟨.ds, 0x100⟩ k = .pf p) ∧
    4 ∈ s.checkedBytes .mmx allLanes ∧ s.answerAt ⟨.ds, 0x100⟩ 4 = .pf ⟨true, false, true, false⟩ ∧
    ∀ k ∈ s.checkedBytes .mmx allLanes, k < 4 → s.answerAt ⟨.ds, 0x100⟩ k = .readable := by
  intro s hs
  simp only [List.mem_cons, List.not_mem_nil, or_false] at hs
  rcases hs with rfl | rfl <;>
    exact ⟨by decide, by decide, by decide, readable_or_pf (p := ⟨true, false, true, false⟩) (by decide),
      by decide, by decide, by decide⟩

/-- `NonCanonicalOperandFaults`: the first and the last non-canonical address, the second through SS. -/
theorem witness_nonCanonical : ∀ a ∈ [Access.mk .ds 0x7FFFFFFFFFF9, Access.mk .ss 0xFFFF7FFFFFFFFFF8],
    base.mode = .bits64 ∧ (base.segBase a.seg).toNat % Form.baseAlignment .mmx base.config = 0 ∧
    base.operandAddress a % Form.alignment .mmx base.config = 0 ∧
    (∀ k ∈ base.checkedBytes .mmx allLanes, base.operandAddress a + k < 2 ^ 64 ∧
      lookupRegion base.regions .read (base.operandAddress a + k) = .readable) ∧
    7 ∈ base.checkedBytes .mmx allLanes ∧ 2 ^ (base.config.linearBits - 1) ≤ base.operandAddress a + 7 ∧
    base.operandAddress a + 7 < 2 ^ 64 - 2 ^ (base.config.linearBits - 1) := by decide +kernel

/-- `AlignmentCheckOfUnalignedOperands`: F-MMX, F-VEX128 and F-EVEX512 one byte off alignment, where later bytes
page-fault. -/
theorem witness_alignmentCheck : ∀ f ∈ [Form.mmx, .vex128, .evex512],
    (pageAt104 checking).cr0.getLsbD 18 = true ∧ (pageAt104 checking).rflags.getLsbD 18 = true ∧
    (pageAt104 checking).cpl = 3 ∧
    ((pageAt104 checking).segBase .ds).toNat % Form.baseAlignment f (pageAt104 checking).config = 0 ∧
    (pageAt104 checking).operandAddress ⟨.ds, 0x101⟩ % Form.alignment f (pageAt104 checking).config = 0 ∧
    (pageAt104 checking).operandAddress ⟨.ds, 0x101⟩ % Form.bytes f ≠ 0 ∧
    ∀ k ∈ (pageAt104 checking).checkedBytes f allLanes,
      (pageAt104 checking).answerAt ⟨.ds, 0x101⟩ k = .readable ∨
      ∃ p, (pageAt104 checking).answerAt ⟨.ds, 0x101⟩ k = .pf p := by
  intro f hf
  simp only [List.mem_cons, List.not_mem_nil, or_false] at hf
  rcases hf with rfl | rfl | rfl <;>
    exact ⟨by decide, by decide, by decide, by decide, by decide, by decide,
      readable_or_pf (p := ⟨true, false, true, false⟩) (by decide)⟩

/-- `MemoryFormsAnswerTheStopOfTheirOperand`: each form ready, and its operand `[0x100]` not readable from byte 4 on,
so that its read stops. -/
theorem witness_operandStops : ∀ f l len, len ≤ 15 → l 2 = true →
    Ready f len (pageAt104 base) ∧
    (pageAt104 base).access f [] false false len (.sibDisp32 0 4 0x100) = ⟨.ds, 0x100⟩ ∧
    ∃ e, (pageAt104 base).readOperand f l ⟨.ds, 0x100⟩ = .error e := by
  intro f l len hl h2
  refine ⟨ready_other _ _ hl rfl, by rfl, ?_⟩
  unfold State.readOperand
  cases h : (pageAt104 base).operandStop f l ⟨.ds, 0x100⟩ with
  | some e => exact ⟨e, rfl⟩
  | none =>
    have h4 := ((operandStop_eq_none _ _ _ _).1 h).2.2.1 4
      ((mem_checkedBytes _ _ _ _).2 ⟨by cases f <;> decide, fun _ => h2⟩)
    exact absurd h4 (by decide)

/-- 60_exceptions.md R159 step 6: F-MMX with an operand that is both unaligned, alignment checking on, and not
readable raises #AC(0); aligned, it raises #PF. -/
theorem test_alignmentCheckBeforePageFault :
    faultOf (exec (.pmulhrswMm [] 0 (.mem (.sibDisp32 0 4 0x101))) (pageAt104 checking)) = some .alignmentCheck ∧
    faultOf (exec (.pmulhrswMm [] 0 at100) (pageAt104 checking)) = some (.pageFault 0b100101 0x104) := by
  decide +kernel

/-- `ExceptionVectors`, last clause: a step that faults. -/
theorem witness_faultingStep : ∃ f, step (base.loadAtPc [0xF3, 0x0F, 0x38, 0x0B, 0xC1]) = .fault f := by
  have h : faultOf (step (base.loadAtPc [0xF3, 0x0F, 0x38, 0x0B, 0xC1])) = some .invalidOpcode := by
    decide +kernel
  revert h
  cases step (base.loadAtPc [0xF3, 0x0F, 0x38, 0x0B, 0xC1]) <;> simp [faultOf]

/-- `ZeroMaskNeverFaultsOnMemory`, each clause: every mask bit that does not count is 1, and nothing is readable. -/
theorem witness_zeroMask :
    let s : BitVec 64 → State := fun k => { withMask base 1 k with regions := [⟨0, 2 ^ 64, .read, .gp⟩] }
    (∀ k, (s k).config.faultSuppression = true ∧ (s k).config.alignCheckNonLegacy = false ∧
      (s k).alignmentChecking = false) ∧ (evex1 true 1).aaa ≠ 0 ∧
    (Ready .evex128 (Instr.vpmulhrswEvex128 [] (evex1 true 1) 0 at100).len (s 0xFFFFFFFFFFFFFF00) ∧
      ((s 0xFFFFFFFFFFFFFF00).opmask (evex1 true 1).aaa).setWidth 8 = 0#8) ∧
    (Ready .evex256 (Instr.vpmulhrswEvex256 [] (evex1 true 1) 0 at100).len (s 0xFFFFFFFFFFFF0000) ∧
      ((s 0xFFFFFFFFFFFF0000).opmask (evex1 true 1).aaa).setWidth 16 = 0#16) ∧
    (Ready .evex512 (Instr.vpmulhrswEvex512 [] (evex1 true 1) 0 at100).len (s 0xFFFFFFFF00000000) ∧
      ((s 0xFFFFFFFF00000000).opmask (evex1 true 1).aaa).setWidth 32 = 0#32) :=
  ⟨fun _ => ⟨rfl, rfl, show base.alignmentChecking = false by decide⟩, by decide,
    ⟨ready_other _ _ (by decide) rfl, by decide⟩,
    ⟨ready_other _ _ (by decide) rfl, by decide⟩, ⟨ready_other _ _ (by decide) rfl, by decide⟩⟩

/-- `MaskedOffBytesAreNeverUsed`: lane 0 alone selected, memory different from byte 2 on. -/
theorem witness_maskedOff : ∀ i < Form.bytes .evex128, (fun j => j == 0) (i / 2) = true →
    Memory.read [(0x102, 7)] (base.operandAddress ⟨.ds, 0x100⟩ + i) =
      Memory.read base.mem (base.operandAddress ⟨.ds, 0x100⟩ + i) := by decide

/-- `OnlyTheMaskBitsOfTheLanesMatter`: K1 changed above bit 31. -/
theorem witness_maskBits :
    (evex1 false 1).aaa ≠ 0 ∧
    (∀ j < 32, ((base.k.set 1 0xFFFFFFFF00000000)[(evex1 false 1).aaa.toNat]'(by decide)).getLsbD j =
      (base.opmask (evex1 false 1).aaa).getLsbD j) ∧
    (∃ t, exec (.vpmulhrswEvex128 [] (evex1 false 1) 0 (.reg 2)) base = .next t) ∧
    (∃ t, exec (.vpmulhrswEvex256 [] (evex1 false 1) 0 (.reg 2)) base = .next t) ∧
    ∃ t, exec (.vpmulhrswEvex512 [] (evex1 false 1) 0 (.reg 2)) base = .next t :=
  ⟨by decide, by decide, exists_next (by decide +kernel),
    exists_next (by decide +kernel),
    exists_next (by decide +kernel)⟩

/-- `VexDestinationIsNotRead`: V0 = V1 * V2. -/
theorem witness_vexDestination :
    vex1.vvvv.setWidth 5 ≠ num5 false vex1.r 0 ∧
    ∀ r, RM.reg 2 = .reg r → num5 false vex1.b r ≠ num5 false vex1.r 0 :=
  ⟨by decide, fun r h => by rw [← RM.reg.inj h]; decide⟩

/-- `EvexWithoutMaskEqualsVex`: registers, and the same memory operand. -/
theorem witness_evexEqualsVex :
    ((evex1 false 0).aaa = 0 ∧ (evex1 false 0).rr = false ∧ (evex1 false 0).vv = false ∧
      (evex1 false 0).r = vex1.r ∧ (evex1 false 0).vvvv = vex1.vvvv) ∧
    num5 (evex1 false 0).x (evex1 false 0).b 2 = num5 false vex1.b 2 ∧
    base.access .vex128 [] false false (Instr.vpmulhrswVex128 [] vex1 0 at100).len (.sibDisp32 0 4 0x100)
      = base.access .evex128 [] false false (Instr.vpmulhrswEvex128 [] (evex1 false 0) 0 at100).len
          (.sibDisp32 0 4 0x100) ∧
    (∃ t, exec (.vpmulhrswVex128 [] vex1 0 at100) base = .next t) ∧
    (∃ u, exec (.vpmulhrswEvex128 [] (evex1 false 0) 0 at100) base = .next u) ∧
    (∃ t, exec (.vpmulhrswVex256 [] vex1 0 at100) base = .next t) ∧
    ∃ u, exec (.vpmulhrswEvex256 [] (evex1 false 0) 0 at100) base = .next u :=
  ⟨by decide, by decide, by decide, witness_completes _ (by simp),
    exists_next (by decide +kernel), witness_completes _ (by simp),
    exists_next (by decide +kernel)⟩

/-- 32-bit mode. -/
def base32 : State := { base with csL := false, baseMode := .prot32 }

/-- `Disp8IsScaledInEvexFormsOnly`, `RipRelativeAddress` (each clause), `SibAndSegmentRules`,
`SixteenBitAddresses`, `BaseAndSibAddresses` and `OperandAddressIsSegmentBasePlusEffectiveAddress` (each clause). -/
theorem witness_addresses :
    base.mode = .bits64 ∧ base32.mode = .prot32 ∧ base32.mode ≠ .bits64 ∧ hasAddrSize [] = false ∧
    hasAddrSize [.seg .gs] = false ∧ hasAddrSize [.addrSize] = true ∧ addr16 base32.mode [] = false ∧
    addr16 State.reset.mode [.addrSize] = false := by decide

/-- `base` and `base32` with rax and rcx at the top of 64 and of 32 bits, and a base of GS. -/
def wide : State :=
  { base with gpr := (base.gpr.set 0 0xFFFFFFFFFFFFFFFF).set 1 0xFFFFFFFF, seg := base.seg.set 5 ⟨0, 0x100000000⟩ }

def wide32 : State := { wide with csL := false, baseMode := .prot32 }

/-- R80 to R82, by hand: `[rcx+1]` and `[rax+rcx*8-1]`, the second with disp8 scaled by 64, in 64-bit mode, under
prefix 67, and in 32-bit mode, where the sums wrap at 2^32. -/
theorem test_effectiveAddresses :
    (wide.access .mmx [] false false 5 (.base 1 (.d8 1))).ea = 0x100000000 ∧
    (wide.access .mmx [.addrSize] false false 5 (.base 1 (.d8 1))).ea = 0 ∧
    (wide32.access .mmx [] false false 5 (.base 1 (.d8 1))).ea = 0 ∧
    (wide.access .evex512 [] false false 8 (.sib 3 1 0 (.d8 0xFF))).ea = 0x7FFFFFFB7 ∧
    (wide32.access .evex512 [] false false 8 (.sib 3 1 0 (.d8 0xFF))).ea = 0xFFFFFFB7 := by decide

/-- R60: the linear address is 64 bits wide in 64-bit mode and 32 outside it; a base of DS counts outside only. -/
theorem test_operandAddress :
    wide.operandAddress ⟨.gs, 0x10⟩ = 0x100000010 ∧ wide32.operandAddress ⟨.gs, 0x10⟩ = 0x10 ∧
    State.operandAddress { wide32 with seg := base.seg.set 3 ⟨0, 0x1000⟩ } ⟨.ds, 0xFFFFFFFF⟩ = 0xFFF ∧
    State.operandAddress { wide with seg := base.seg.set 3 ⟨0, 0x1000⟩ } ⟨.ds, 0x10⟩ = 0x10 := by decide

/-- `SegmentIsTheOneAnOverrideNames`: each clause: overrides of different segments, of one, of none. -/
theorem witness_segments :
    Prefix.seg .es ∈ [Prefix.seg .es, .seg .fs] ∧
    (∀ h, Prefix.seg h ∈ [Prefix.seg .fs, .addrSize, .seg .fs] → h = .fs) ∧
    ∀ g, Prefix.seg g ∉ [Prefix.addrSize] := by
  refine ⟨by decide, ?_, ?_⟩ <;> intro g <;> cases g <;> decide

/-- ALIGN_CHECK_NONLEGACY set, and bases of FS and GS of 8 and 16. -/
def strict : State :=
  { base with
    config := { base.config with alignCheckNonLegacy := true }
    seg := (base.seg.set 4 ⟨0, 8⟩).set 5 ⟨0, 16⟩ }

/-- `AlignCheckNonLegacyRaisesGeneralProtection`, both clauses: an address that is 8 off; and bases 8 and 16. -/
theorem witness_alignCheckNonLegacy :
    strict.config.alignCheckNonLegacy = true ∧ (strict.segBase .gs).toNat % 16 = 0 ∧
    strict.operandAddress ⟨.gs, 8⟩ % 16 ≠ 0 ∧ strict.operandAddress ⟨.gs, 0⟩ % 32 ≠ 0 ∧
    strict.operandAddress ⟨.gs, 1⟩ % 8 ≠ 0 ∧ strict.operandAddress ⟨.gs, 0⟩ % 64 ≠ 0 ∧
    (strict.segBase .fs).toNat % 16 ≠ 0 := by decide

/-- D6: an m256 operand at linear address 0x20, through a base of 16, is aligned; it is read. -/
theorem test_alignCheckNonLegacy_base16 :
    strict.readOperand .vex256 allLanes ⟨.gs, 0x10⟩ = .ok 0 := by decide +kernel

/-- `OnlyRegistersBelow8OutsideBits64`: each clause, with the highest registers. -/
theorem witness_registersBelow8 :
    Mode.prot32 ≠ .bits64 ∧
    (Instr.pmulhrswXmm [.opSize] 7 (.reg 7)).wf .prot32 = true ∧
    (Instr.vpmulhrswVex128 [] ⟨false, false, false, true, 7⟩ 7 (.reg 7)).wf .prot32 = true ∧
    (Instr.vpmulhrswVex256 [] ⟨false, false, false, true, 7⟩ 7 (.reg 7)).wf .prot16 = true ∧
    (Instr.vpmulhrswEvex128 [] ⟨false, false, false, false, true, 7, false, false, 7⟩ 7 (.reg 7)).wf .prot32
      = true ∧
    (Instr.vpmulhrswEvex256 [] ⟨false, false, false, false, true, 7, true, false, 7⟩ 7 (.reg 7)).wf .prot32
      = true ∧
    (Instr.vpmulhrswEvex512 [] ⟨false, false, false, false, true, 7, true, false, 7⟩ 7 (.reg 7)).wf .prot32
      = true := by decide

/-- `DecodeOfEncodeIsTheInstruction`: a well-formed instruction of each constructor, in each mode it can
be in, among them the longest. -/
theorem witness_wellFormed :
    (Instr.pmulhrswMm (List.replicate 11 (.seg .ds)) 0 (.reg 0)).wf .real = true ∧
    (Instr.pmulhrswXmm [.opSize, .addrSize] 7 (.mem (.base16 6 (.d8 0)))).wf .prot32 = true ∧
    (Instr.vpmulhrswVex128 [.addrSize] ⟨true, true, true, true, 15⟩ 7 (.mem (.disp32 0))).wf .bits64 = true ∧
    (Instr.vpmulhrswVex256 [] vex1 0 (.mem (.sibDisp32 3 7 0))).wf .prot32 = true ∧
    (Instr.vpmulhrswEvex128 [] ⟨true, true, true, true, true, 15, true, true, 7⟩ 7
      (.mem (.sib 3 7 7 (.d32 0xFFFFFFFF)))).wf .bits64 = true ∧
    (Instr.vpmulhrswEvex256 [] (evex1 true 1) 0 (.mem (.base 5 (.d8 0)))).wf .prot32 = true ∧
    (Instr.vpmulhrswEvex512 [.seg .fs, .seg .fs] (evex1 false 0) 0 (.mem (.base16 0 .none))).wf .prot16 = true := by
  decide

/-- `ReservedLegacyPrefixIsInvalid`, `ReservedPrefixBeforeVexOrEvexIsInvalid`: the decoder's clauses, in 64-bit and in
32-bit mode, and a VEX encoding of exactly 15 bytes. -/
theorem witness_reservedPrefix :
    (∀ p ∈ [Prefix.lock, .repne, .rep, .opSize],
      (∀ r, Prefix.rex r ∈ [p] → Mode.prot32 = .bits64) ∧ (RM.reg 0).wf (addr16 .bits64 [p]) = true ∧
      (RM.reg 0).wf (addr16 .prot32 [p]) = true ∧ [p].length + 6 + (RM.reg 0).size ≤ 15 ∧
      (Prefix.lock ∈ [p] ∨ .opSize ∈ [p] ∨ .repne ∈ [p] ∨ .rep ∈ [p])) ∧
    (vex1.r = false ∧ vex1.x = false) ∧ ((evex1 false 0).r = false ∧ (evex1 false 0).x = false) ∧
    (Prefix.lock ∈ List.replicate 10 Prefix.lock ∧
      (List.replicate 10 Prefix.lock).length + 5 + (RM.reg 0).size = 15) ∧
    ∃ r, Prefix.rex r ∈ [Prefix.rex ⟨false, false, false, false⟩] := by
  refine ⟨?_, by decide, by decide, by decide, ⟨_, List.mem_singleton_self _⟩⟩
  intro p hp
  simp only [List.mem_cons, List.not_mem_nil, or_false] at hp
  rcases hp with rfl | rfl | rfl | rfl <;> simp [RM.wf, RM.size]

/-- `ReservedEvexPatternsAreInvalid`: each clause of the decoder. -/
theorem witness_reservedEvex :
    (∀ p ∈ [0xF6#8, 0xFA#8], p.extractLsb' 0 2 = 0b10#2 ∧ p.extractLsb' 6 2 = 0b11#2 ∧
      (p.getLsbD 2 = true ∨ p.getLsbD 3 = true)) ∧
    (0x71#8).extractLsb' 0 2 = 0b01#2 ∧ (0x71#8).getLsbD 2 = false ∧
    ((0x68#8).getLsbD 5 = true ∧ (0x68#8).getLsbD 6 = true) ∧ (0x18#8).getLsbD 4 = true ∧
    ((0x88#8).getLsbD 7 = true ∧ (0x88#8).extractLsb' 0 3 = 0) ∧ [Prefix.seg .fs, .addrSize].length + 6 ≤ 15 := by
  decide

/-- The same three statements, the clause of the step: states whose fetched bytes are a reserved encoding and what
follows it, in 64-bit and in 32-bit mode. -/
theorem witness_reservedStep : ∀ s ∈ [base, base32],
    (∃ rest, (s.loadAtPc [0xF0, 0x0F, 0x38, 0x0B, 0xC0]).fetchWindow.1
      = [Prefix.lock].map Prefix.toByte ++ [0x0F, 0x38, 0x0B] ++ encodeModRM 0 (.reg 0) ++ rest) ∧
    (∃ rest, (s.loadAtPc [0x66, 0xC4, 0xE2, 0x71, 0x0B, 0xC0]).fetchWindow.1
      = encodeVex 0 [.opSize] vex1 0 (.reg 0) ++ rest) ∧
    (∃ rest, (s.loadAtPc [0x66, 0x62, 0xF2, 0x75, 0x08, 0x0B, 0xC0]).fetchWindow.1
      = encodeEvex 0 [.opSize] (evex1 false 0) 0 (.reg 0) ++ rest) ∧
    ∃ rest, (s.loadAtPc [0x64, 0x62, 0xF2, 0x75, 0x18, 0x0B, 0xC0]).fetchWindow.1
      = [Prefix.seg .fs].map Prefix.toByte ++ [0x62, 0xF2, 0x75, 0x18, 0x0B] ++ encodeModRM 0 (.reg 0) ++ rest := by
  intro s hs
  simp only [List.mem_cons, List.not_mem_nil, or_false] at hs
  rcases hs with rfl | rfl <;>
    exact ⟨⟨List.replicate 10 0, by decide +kernel⟩, ⟨List.replicate 9 0, by decide +kernel⟩,
      ⟨List.replicate 8 0, by decide +kernel⟩, List.replicate 8 0, by decide +kernel⟩

/-- `OverlongInstructionIsGeneralProtection`: sixteen bytes of each shape, whose first fifteen are fetched, in 64-bit
and in 32-bit mode. -/
theorem witness_overlong : ∀ s ∈ [base, base32],
    ∀ bytes ∈ [encodeLegacy (List.replicate 12 (.seg .ds)) 0 (.reg 0),
      encodeVex 0 (List.replicate 11 (.seg .ds)) vex1 0 (.reg 0),
      encodeEvex 0 (List.replicate 10 (.seg .ds)) (evex1 false 0) 0 (.reg 0)],
    ((s.loadAtPc bytes).mode = .bits64 ∨ (s.loadAtPc bytes).mode = .prot32) ∧ 15 < bytes.length ∧
    (s.loadAtPc bytes).fetchWindow = (bytes.take 15, .limit) := by decide +kernel

/-- The same, its conditions on prefixes and fields. -/
theorem witness_overlongFields :
    (∀ m n, ∀ r, Prefix.rex r ∈ List.replicate n (Prefix.seg .ds) → m = Mode.bits64) ∧
    (∀ m pre, (RM.reg 0).wf (addr16 m pre) = true) ∧ (vex1.r = false ∧ vex1.x = false) ∧
    ((evex1 false 0).r = false ∧ (evex1 false 0).x = false) := by
  refine ⟨fun m n r h => ?_, fun _ _ => rfl, by decide, by decide⟩
  simp [List.mem_replicate] at h

/-- `StepRunsTheDecodedInstruction`, `StepRunsTheInstructionInMemory`. -/
theorem witness_stepRuns :
    placed.mode = .bits64 ∧
    (∃ rest, decode placed.mode placed.fetchWindow.1 = .ok (.pmulhrswMm [] 0 (.reg 1), rest)) ∧
    (Instr.pmulhrswMm [] 0 (.reg 1)).wf placed.mode = true ∧
    ∀ n (h : n < (encode (.pmulhrswMm [] 0 (.reg 1))).length),
      placed.translate .fetch .cs (placed.fetchAddress + n) = .readable ∧
      Memory.read placed.mem (placed.fetchAddress + n) = (encode (.pmulhrswMm [] 0 (.reg 1)))[n] :=
  ⟨by decide, placed_decodes, by decide, by decide +kernel⟩

/-- `OnlyMmxRunsStraightAfterReset`: memory that holds PMULHRSW mm0, mm1 at the reset address. -/
theorem witness_afterReset : ∃ t,
    step { State.reset with mem := Memory.writeBytes [] 0xFFFFFFF0 [0x0F, 0x38, 0x0B, 0xC1] } = .next t :=
  exists_next (by decide +kernel)

/-- `PlacedWordIsFetched`. -/
theorem witness_placedWord :
    base.mode = .bits64 ∧ Memory.wf base.mem ∧
    ∀ n < 15, base.translate .fetch .cs (base.fetchAddress + n) = .readable :=
  ⟨by decide, Memory.wf_nil, by decide⟩

end Sys2Proof.Tests
end

section
/-! PROOFS. Noninterference of a state field: an instruction run on a state that differs in that field alone. -/

namespace Sys2Proof.Machine

/-! ## Outcomes under a change of the next state -/

/-- The outcome with `g` applied to the next state, if there is one. -/
def mapNext (g : State → State) : Outcome → Outcome
  | .next t => .next (g t)
  | .fault f => .fault f
  | .refused r => .refused r

@[simp] theorem mapNext_next (g : State → State) (t : State) : mapNext g (.next t) = .next (g t) := rfl

@[simp] theorem mapNext_outcome (g : State → State) (e : Stop) : mapNext g e.outcome = e.outcome := by
  cases e <;> rfl

/-- An instruction whose gate and last source do not see a change `g` of the state, and whose write carries
it along, runs with the same outcome up to `g`. -/
theorem run_eq_mapNext {s s' : State} {f : Form} {len : Nat} {source source' : Except Stop VReg}
    {write write' : VReg → State} {g : State → State} (hgate : s'.gate f len = s.gate f len)
    (hsource : source' = source) (hwrite : ∀ v, (write' v).advance len = g ((write v).advance len)) :
    s'.run f len source' write' = mapNext g (s.run f len source write) := by
  subst hsource
  cases hg : s.gate f len with
  | some e => rw [run_of_gate (hgate.trans hg), run_of_gate hg, mapNext_outcome]
  | none =>
    cases source' with
    | error e => rw [run_of_source (hgate.trans hg), run_of_source hg, mapNext_outcome]
    | ok v => rw [run_of_value (hgate.trans hg), run_of_value hg, mapNext_next, hwrite]

/-! ## Another MXCSR (10_state.md R30) -/

/-- The state with another MXCSR. -/
def State.withMxcsr (s : State) (m : BitVec 32) : State := { s with mxcsr := m }

variable (s : State) (m : BitVec 32)

@[simp] theorem withMxcsr_v (n : BitVec 5) : (s.withMxcsr m).v n = s.v n := rfl

@[simp] theorem withMxcsr_mm (n : BitVec 3) : (s.withMxcsr m).mm n = s.mm n := rfl

@[simp] theorem withMxcsr_writemask (aaa : BitVec 3) : (s.withMxcsr m).writemask aaa = s.writemask aaa := rfl

@[simp] theorem withMxcsr_gate (f : Form) (len : Nat) : (s.withMxcsr m).gate f len = s.gate f len := rfl

@[simp] theorem withMxcsr_access (f : Form) (pre : List Prefix) (xb bb : Bool) (len : Nat) (a : Mem) :
    (s.withMxcsr m).access f pre xb bb len a = s.access f pre xb bb len a := by
  cases a <;> rfl

@[simp] theorem withMxcsr_readOperand (f : Form) (lanes : Nat → Bool) (a : Access) :
    (s.withMxcsr m).readOperand f lanes a = s.readOperand f lanes a := rfl

@[simp] theorem withMxcsr_source (f : Form) (lanes : Nat → Bool) (pre : List Prefix) (xb bb : Bool) (len : Nat)
    (reg : BitVec 3 → VReg) (rm : RM) :
    (s.withMxcsr m).source f lanes pre xb bb len reg rm = s.source f lanes pre xb bb len reg rm := by
  cases rm with
  | reg r => rfl
  | mem a => simp only [State.source, withMxcsr_access, withMxcsr_readOperand]

theorem withMxcsr_advance (len : Nat) : (s.withMxcsr m).advance len = (s.advance len).withMxcsr m := rfl

theorem withMxcsr_writeV (n : BitVec 5) (v : VReg) :
    (s.withMxcsr m).writeV n v = (s.writeV n v).withMxcsr m := rfl

theorem withMxcsr_writeXmm (n : BitVec 5) (v : BitVec 128) :
    (s.withMxcsr m).writeXmm n v = (s.writeXmm n v).withMxcsr m := rfl

theorem withMxcsr_writeMm (n : BitVec 3) (v : BitVec 64) :
    (s.withMxcsr m).writeMm n v = (s.writeMm n v).withMxcsr m := rfl

/-- The operation of both VEX forms, at either width, carries MXCSR along. -/
theorem vexOperation_withMxcsr (f : Form) (pre : List Prefix) (v : Vex) (reg : BitVec 3) (rm : RM) :
    vexOperation f pre v reg rm (s.withMxcsr m) = mapNext (·.withMxcsr m) (vexOperation f pre v reg rm s) := by
  apply run_eq_mapNext
  · exact withMxcsr_gate s m f _
  · simp only [withMxcsr_v, withMxcsr_source]
  · intro src
    simp only [withMxcsr_v, withMxcsr_writeV, withMxcsr_advance]

/-- The operation of the three EVEX forms, masked or not, carries MXCSR along. -/
theorem evexOperation_withMxcsr (f : Form) (pre : List Prefix) (e : Evex) (reg : BitVec 3) (rm : RM) :
    evexOperation f pre e reg rm (s.withMxcsr m) = mapNext (·.withMxcsr m) (evexOperation f pre e reg rm s) := by
  apply run_eq_mapNext
  · exact withMxcsr_gate s m f _
  · simp only [withMxcsr_v, withMxcsr_writemask, withMxcsr_source]
  · intro src
    simp only [withMxcsr_v, withMxcsr_writemask, withMxcsr_writeV, withMxcsr_advance]

theorem execPmulhrswMm_withMxcsr (pre : List Prefix) (reg : BitVec 3) (rm : RM) :
    execPmulhrswMm pre reg rm (s.withMxcsr m) = mapNext (·.withMxcsr m) (execPmulhrswMm pre reg rm s) := by
  apply run_eq_mapNext
  · exact withMxcsr_gate s m .mmx _
  · simp only [withMxcsr_mm, withMxcsr_source]
  · intro src
    simp only [withMxcsr_mm, withMxcsr_writeMm, withMxcsr_advance]

theorem execPmulhrswXmm_withMxcsr (pre : List Prefix) (reg : BitVec 3) (rm : RM) :
    execPmulhrswXmm pre reg rm (s.withMxcsr m) = mapNext (·.withMxcsr m) (execPmulhrswXmm pre reg rm s) := by
  apply run_eq_mapNext
  · exact withMxcsr_gate s m .sse _
  · simp only [withMxcsr_v, withMxcsr_source]
  · intro src
    simp only [withMxcsr_v, withMxcsr_writeXmm, withMxcsr_advance]

/-- Every instruction answers the same with another MXCSR, which the next state keeps. -/
theorem exec_withMxcsr (i : Instr) :
    exec i (s.withMxcsr m) = mapNext (·.withMxcsr m) (exec i s) := by
  cases i with
  | pmulhrswMm pre reg rm => exact execPmulhrswMm_withMxcsr s m pre reg rm
  | pmulhrswXmm pre reg rm => exact execPmulhrswXmm_withMxcsr s m pre reg rm
  | vpmulhrswVex128 pre v reg rm => exact vexOperation_withMxcsr s m .vex128 pre v reg rm
  | vpmulhrswVex256 pre v reg rm => exact vexOperation_withMxcsr s m .vex256 pre v reg rm
  | vpmulhrswEvex128 pre e reg rm => exact evexOperation_withMxcsr s m .evex128 pre e reg rm
  | vpmulhrswEvex256 pre e reg rm => exact evexOperation_withMxcsr s m .evex256 pre e reg rm
  | vpmulhrswEvex512 pre e reg rm => exact evexOperation_withMxcsr s m .evex512 pre e reg rm

/-- Vector 19, the SIMD floating-point exception, is none of those of 60_exceptions.md R157. -/
theorem Fault.vector_ne_simdFloatingPoint (f : Fault) : f.vector ≠ 19 := by
  cases f <;> simp [Fault.vector]

end Sys2Proof.Machine

open Sys2Proof.Machine in
/-- Settles O16: running commutes with the replacement of MXCSR, and no fault of the model has vector 19. -/
theorem mxcsrIsNeitherReadNorWritten : Obligations.MxcsrIsNeitherReadNorWritten := by
  intro i s m
  refine ⟨?_, fun f _ => f.vector_ne_simdFloatingPoint⟩
  have h : exec i { s with mxcsr := m } = mapNext (·.withMxcsr m) (exec i s) := exec_withMxcsr s m i
  rw [h]
  cases exec i s <;> rfl

end

section
/-! PROOFS. The lane function as R110 words it and as the rounded quotient of R113 (40_mulhrs_lane.md). -/

namespace Sys2Proof.Machine

/-! ## Fields of a shifted word -/

section Fields
variable {w : Nat} (x : BitVec w) {n len : Nat}

/-- The low bits left by an arithmetic shift, where it has copied no sign bit into them. -/
theorem extractLsb'_sshiftRight (h : n + len ≤ w) :
    (x.sshiftRight n).extractLsb' 0 len = x.extractLsb' n len := by
  ext i hi
  have hlow : ¬ w ≤ i := by omega
  have hin : n + i < w := by omega
  simp [BitVec.getLsbD_sshiftRight, hlow, hin]

/-- The low bits left by a logical shift. -/
theorem extractLsb'_ushiftRight : (x >>> n).extractLsb' 0 len = x.extractLsb' n len := by
  ext i hi
  simp

/-- A field of a word is the word read as a signed integer and divided, rounding down. -/
theorem extractLsb'_eq_ofInt_ediv (h : n + len ≤ w) :
    x.extractLsb' n len = BitVec.ofInt len (x.toInt / 2 ^ n) := by
  calc x.extractLsb' n len
      = (x.sshiftRight n).setWidth len := by
        rw [BitVec.setWidth_eq_extractLsb' (by omega), extractLsb'_sshiftRight x h]
    _ = BitVec.ofInt len (x.sshiftRight n).toInt :=
        (BitVec.signExtend_eq_setWidth_of_le _ (by omega)).symm
    _ = BitVec.ofInt len (x.toInt / 2 ^ n) := by
        rw [BitVec.toInt_sshiftRight, Int.shiftRight_eq_div_pow]
        norm_cast

end Fields

/-- The carry of the rounding addition runs upward only, so 18 bits of the shifted product give the result
(R111). -/
theorem extractLsb'_add_one_eq_of_low (x : BitVec 32) :
    (x + 1).extractLsb' 1 16 = (x.extractLsb' 0 18 + 1).extractLsb' 1 16 := by
  have hone : (1 : BitVec 32).extractLsb' 0 18 = 1 := by decide
  calc (x + 1).extractLsb' 1 16
      = ((x + 1).extractLsb' 0 18).extractLsb' 1 16 := (BitVec.extractLsb'_extractLsb'_of_le (by decide)).symm
    _ = (x.extractLsb' 0 18 + 1).extractLsb' 1 16 := by rw [BitVec.extractLsb'_add (by decide), hone]

section Lanes
variable (a b : Lane)

/-- The description's words in R110: only p[31:14] is used. -/
theorem mulhrs16_eq_truncated :
    mulhrs16 a b = ((BitVec.ofInt 32 (a.toInt * b.toInt)).extractLsb' 14 18 + 1).extractLsb' 1 16 := by
  rw [mulhrs16, extractLsb'_add_one_eq_of_low, extractLsb'_sshiftRight _ (by decide)]

/-- The pseudocode of R110 read with a logical shift. -/
theorem mulhrs16_eq_ushiftRight :
    mulhrs16 a b = (((BitVec.ofInt 32 (a.toInt * b.toInt)) >>> 14) + 1).extractLsb' 1 16 := by
  rw [mulhrs16_eq_truncated, extractLsb'_add_one_eq_of_low, extractLsb'_ushiftRight]

/-- The product fits a signed 32-bit integer (R111). -/
theorem toInt_ofInt_laneProduct : (BitVec.ofInt 32 (a.toInt * b.toInt)).toInt = a.toInt * b.toInt := by
  have hle := BitVec.toInt_mul_toInt_le (x := a) (y := b)
  have hge := BitVec.le_toInt_mul_toInt (x := a) (y := b)
  exact BitVec.toInt_ofInt_eq_self (by decide) (by omega) (by omega)

/-- The shifted product plus 1, as an integer: the addition does not wrap. -/
theorem toInt_laneSum :
    ((BitVec.ofInt 32 (a.toInt * b.toInt)).sshiftRight 14 + 1).toInt = a.toInt * b.toInt / 16384 + 1 := by
  have hle := BitVec.toInt_mul_toInt_le (x := a) (y := b)
  have hge := BitVec.le_toInt_mul_toInt (x := a) (y := b)
  rw [BitVec.toInt_add, BitVec.toInt_sshiftRight, toInt_ofInt_laneProduct, Int.shiftRight_eq_div_pow]
  exact Int.bmod_eq_of_le (by simp; omega) (by simp; omega)

/-- The closed form of R112: two divisions in a row, with the 1 added between them, are one. -/
theorem mulhrs16_eq_roundedProduct : mulhrs16 a b = roundedProduct a b := by
  have hdiv : (a.toInt * b.toInt / 16384 + 1) / 2 ^ 1 = (a.toInt * b.toInt + 16384) / 32768 := by omega
  rw [mulhrs16, extractLsb'_eq_ofInt_ediv _ (by decide), toInt_laneSum, hdiv, roundedProduct]

/-- A rounded quotient that fits 16 bits is what its pattern reads as (R113). -/
theorem toInt_roundedProduct (hge : -32768 ≤ (a.toInt * b.toInt + 16384) / 32768)
    (hle : (a.toInt * b.toInt + 16384) / 32768 ≤ 32767) :
    (roundedProduct a b).toInt = (a.toInt * b.toInt + 16384) / 32768 :=
  BitVec.toInt_ofInt_eq_self (by decide) hge (Int.lt_add_one_of_le hle)

end Lanes

end Sys2Proof.Machine

open Sys2Proof.Machine in
/-- Settles O1: only the low 18 bits of the shifted product reach the result, and both shifts leave p[31:14]
there. -/
theorem laneTruncatesAddsOneAndSelects : Obligations.LaneTruncatesAddsOneAndSelects :=
  ⟨fun a b => ⟨mulhrs16_eq_truncated a b, mulhrs16_eq_ushiftRight a b⟩, by decide⟩

open Sys2Proof.Machine in
/-- Settles O2: the result is the pattern of the rounded quotient (R112), read back in its signed range. -/
theorem laneIsTheRoundedQuotientWhenItFits : Obligations.LaneIsTheRoundedQuotientWhenItFits := by
  intro a b hge hle
  rw [mulhrs16_eq_roundedProduct, toInt_roundedProduct a b hge hle]

end

section
/-! PROOFS. The decoder and the encoder are inverse to each other (30_encoding.md R94): what each part of the decoder
read is what the encoder writes for it. -/

namespace Sys2Proof

/-! ## Prefixes -/

/-- A byte `0100WRXB` is made of its four bits. -/
theorem Rex.toByte_ofByte : ∀ b : Byte, b.extractLsb' 4 4 = 0b0100#4 → (Rex.ofByte b).toByte = b := by
  decide

/-- The byte that is read for one of the prefixes is that one's byte, and it exists in the mode. -/
theorem Prefix.of_ofByte_eq_some {m : Mode} {b : Byte} {p : Prefix} (h : Prefix.ofByte m b = some p) :
    p.toByte = b ∧ p.existsIn m = true := by
  simp only [Prefix.ofByte, ite_eq_iff, Option.some.injEq, reduceCtorEq, and_false, or_false] at h
  rcases h with ⟨rfl, rfl⟩ | ⟨-, ⟨rfl, rfl⟩ | ⟨-, ⟨rfl, rfl⟩ | ⟨-, ⟨rfl, rfl⟩ | ⟨-, ⟨rfl, rfl⟩ | ⟨-, ⟨rfl, rfl⟩ |
    ⟨-, ⟨rfl, rfl⟩ | ⟨-, ⟨rfl, rfl⟩ | ⟨-, ⟨rfl, rfl⟩ | ⟨-, ⟨rfl, rfl⟩ | ⟨-, ⟨rfl, rfl⟩ | ⟨-, ⟨rfl, hb⟩, rfl⟩⟩⟩⟩⟩⟩⟩⟩⟩⟩⟩
  any_goals exact ⟨rfl, rfl⟩
  exact ⟨Rex.toByte_ofByte b hb, rfl⟩

/-- The scan takes the bytes of existing prefixes off the front and leaves the rest. -/
theorem bytes_of_scanPrefixes (m : Mode) (bs : List Byte) :
    (scanPrefixes m bs).1.map Prefix.toByte ++ (scanPrefixes m bs).2 = bs ∧
      ∀ p ∈ (scanPrefixes m bs).1, p.existsIn m = true := by
  induction bs with
  | nil => exact ⟨rfl, by simp [scanPrefixes]⟩
  | cons b t ih =>
    obtain ⟨hbytes, hexists⟩ := ih
    unfold scanPrefixes
    cases hp : Prefix.ofByte m b with
    | none => simp
    | some p =>
      obtain ⟨hb, he⟩ := Prefix.of_ofByte_eq_some hp
      simp only [List.map_cons, List.cons_append, hb, hbytes, List.forall_mem_cons]
      exact ⟨trivial, he, hexists⟩

/-! ## ModRM, SIB, displacement -/

/-- The encoder takes a 32-bit displacement apart as `take32` put it together. -/
theorem bytes32_append (b0 b1 b2 b3 : Byte) : bytes32 (b3 ++ b2 ++ b1 ++ b0) = [b0, b1, b2, b3] := by
  simp only [bytes32, List.cons.injEq, and_true]
  refine ⟨?_, ?_, ?_, ?_⟩ <;> ext i hi <;> simp <;> grind

/-- The same of a 16-bit displacement. -/
theorem bytes16_append (b0 b1 : Byte) : bytes16 (b1 ++ b0) = [b0, b1] := by
  simp only [bytes16, List.cons.injEq, and_true]
  refine ⟨?_, ?_⟩ <;> ext i hi <;> simp <;> grind


theorem bytes32_of_take32 {bs t : List Byte} {v : BitVec 32} (h : take32 bs = some (v, t)) :
    bytes32 v ++ t = bs := by
  unfold take32 at h
  split at h
  · cases h
    rw [bytes32_append]
    rfl
  · cases h

theorem bytes16_of_take16 {bs t : List Byte} {v : BitVec 16} (h : take16 bs = some (v, t)) :
    bytes16 v ++ t = bs := by
  unfold take16 at h
  split at h
  · cases h
    rw [bytes16_append]
    rfl
  · cases h

/-- The value of mod that the last branch of `parseDisp` stands for. -/
theorem eq_two_of_ne : ∀ mod : BitVec 2, mod ≠ 3 → mod ≠ 0 → mod ≠ 1 → mod = 2 := by decide

/-- A displacement read has the mod it was read with, and its bytes are those read. -/
theorem bytes_of_parseDisp {mod : BitVec 2} {bs t : List Byte} {d : Disp} (hmod : mod ≠ 3)
    (h : parseDisp mod bs = some (d, t)) : d.mod = mod ∧ d.bytes ++ t = bs := by
  unfold parseDisp at h
  split_ifs at h with h0 h1
  · cases h
    exact ⟨h0.symm, rfl⟩
  · split at h <;> cases h
    exact ⟨h1.symm, rfl⟩
  · obtain ⟨⟨v, t'⟩, hv, he⟩ := Option.map_eq_some_iff.1 h
    cases he
    exact ⟨(eq_two_of_ne mod hmod h0 h1).symm, bytes32_of_take32 hv⟩

/-- The same of a displacement of 16-bit addressing. -/
theorem bytes_of_parseDisp16 {mod : BitVec 2} {bs t : List Byte} {d : Disp16} (hmod : mod ≠ 3)
    (h : parseDisp16 mod bs = some (d, t)) : d.mod = mod ∧ d.bytes ++ t = bs := by
  unfold parseDisp16 at h
  split_ifs at h with h0 h1
  · cases h
    exact ⟨h0.symm, rfl⟩
  · split at h <;> cases h
    exact ⟨h1.symm, rfl⟩
  · obtain ⟨⟨v, t'⟩, hv, he⟩ := Option.map_eq_some_iff.1 h
    cases he
    exact ⟨(eq_two_of_ne mod hmod h0 h1).symm, bytes16_of_take16 hv⟩

/-- An r/m operand that the mod and rm fields of ModRM and the bytes after it spell. -/
def RM.Spells (a16 : Bool) (mod : BitVec 2) (low : BitVec 3) (bs : List Byte) (rm : RM) (t : List Byte) : Prop :=
  rm.wf a16 = true ∧ rm.mod = mod ∧ rm.low = low ∧ rm.tail ++ t = bs

/-- A byte is made of its fields `[7:6]`, `[5:3]` and `[2:0]`: ModRM and SIB alike. -/
theorem sib_append_fields : ∀ s : Byte,
    (s.extractLsb' 6 2 ++ s.extractLsb' 3 3 ++ s.extractLsb' 0 3 : BitVec 8) = s := by
  intro s
  ext i hi
  simp
  grind

/-- A SIB form read is one that its bytes spell, with rm = 100. -/
theorem spells_of_parseSib {mod : BitVec 2} {bs t : List Byte} {m : Mem} (hmod : mod ≠ 3)
    (h : parseSib mod bs = some (m, t)) : RM.Spells false mod 4 bs (.mem m) t := by
  cases bs with
  | nil => cases h
  | cons s bs =>
    simp only [parseSib] at h
    split_ifs at h with hc
    · obtain ⟨⟨v, t'⟩, hv, he⟩ := Option.map_eq_some_iff.1 h
      cases he
      refine ⟨rfl, hc.1.symm, rfl, ?_⟩
      have hs := sib_append_fields s
      rw [hc.2] at hs
      rw [RM.tail, List.cons_append, bytes32_of_take32 hv]
      exact congrArg (· :: bs) hs
    · obtain ⟨⟨d, t'⟩, hd, he⟩ := Option.map_eq_some_iff.1 h
      cases he
      obtain ⟨hdm, hdb⟩ := bytes_of_parseDisp hmod hd
      have hne : ¬(s.extractLsb' 0 3 = 5 ∧ d = .none) := fun ⟨hb, hd0⟩ => hc ⟨by rw [← hdm, hd0]; rfl, hb⟩
      refine ⟨by simpa [RM.wf, Mem.wf, ← not_and_or] using hne, hdm, rfl, ?_⟩
      rw [RM.tail, List.cons_append, sib_append_fields, hdb]

/-- A memory operand read is one that its bytes spell. -/
theorem spells_of_parseMem {a16 : Bool} {mod : BitVec 2} {low : BitVec 3} {bs t : List Byte} {m : Mem}
    (hmod : mod ≠ 3) (h : parseMem a16 mod low bs = some (m, t)) : RM.Spells a16 mod low bs (.mem m) t := by
  cases a16 with
  | true =>
    rw [parseMem, if_pos rfl] at h
    split_ifs at h with hc
    · obtain ⟨⟨v, t'⟩, hv, he⟩ := Option.map_eq_some_iff.1 h
      cases he
      exact ⟨rfl, hc.1.symm, hc.2.symm, bytes16_of_take16 hv⟩
    · obtain ⟨⟨d, t'⟩, hd, he⟩ := Option.map_eq_some_iff.1 h
      cases he
      obtain ⟨hdm, hdb⟩ := bytes_of_parseDisp16 hmod hd
      have hne : ¬(low = 6 ∧ d = .none) := fun ⟨hl, hd0⟩ => hc ⟨by rw [← hdm, hd0]; rfl, hl⟩
      exact ⟨by simpa [RM.wf, Mem.wf, ← not_and_or] using hne, hdm, rfl, hdb⟩
  | false =>
    rw [parseMem, if_neg Bool.false_ne_true] at h
    split_ifs at h with h4 hc
    · subst h4
      exact spells_of_parseSib hmod h
    · obtain ⟨⟨v, t'⟩, hv, he⟩ := Option.map_eq_some_iff.1 h
      cases he
      exact ⟨rfl, hc.1.symm, hc.2.symm, bytes32_of_take32 hv⟩
    · obtain ⟨⟨d, t'⟩, hd, he⟩ := Option.map_eq_some_iff.1 h
      cases he
      obtain ⟨hdm, hdb⟩ := bytes_of_parseDisp hmod hd
      have hne : ¬(low = 5 ∧ d = .none) := fun ⟨hl, hd0⟩ => hc ⟨by rw [← hdm, hd0]; rfl, hl⟩
      have hwf : low ≠ 4 ∧ ¬(low = 5 ∧ d = .none) := ⟨h4, hne⟩
      exact ⟨by simpa [RM.wf, Mem.wf, ← not_and_or] using hwf, hdm, rfl, hdb⟩

/-- The r/m operand read is one that its bytes spell. -/
theorem spells_of_parseRM {a16 : Bool} {mod : BitVec 2} {low : BitVec 3} {bs t : List Byte} {rm : RM}
    (h : parseRM a16 mod low bs = some (rm, t)) : RM.Spells a16 mod low bs rm t := by
  unfold parseRM at h
  split_ifs at h with h3
  · cases h
    exact ⟨rfl, h3.symm, rfl, rfl⟩
  · obtain ⟨⟨m, t'⟩, hm, he⟩ := Option.map_eq_some_iff.1 h
    cases he
    exact spells_of_parseMem h3 hm

/-! ## The three shapes -/

/-- A byte is read exactly where there is one. -/
theorem nextByte_eq_ok {bs : List Byte} {f : Byte → List Byte → Decoded} {r : Instr × List Byte} :
    nextByte bs f = .ok r ↔ ∃ b t, bs = b :: t ∧ f b t = .ok r := by
  cases bs <;> simp [nextByte]

/-- A check of the decoder passes exactly when its condition fails. -/
theorem error_ite_eq_ok {α : Type} {c : Prop} [Decidable c] {e : DecodeError} {x : Except DecodeError α} {r : α} :
    (if c then .error e else x) = .ok r ↔ ¬c ∧ x = .ok r := by
  by_cases hc : c <;> simp [hc]

theorem map_eq_ok {α β : Type} {x : Except DecodeError α} {f : α → β} {r : β} :
    x.map f = .ok r ↔ ∃ a, x = .ok a ∧ f a = r := by
  cases x <;> simp [Except.map]

/-- The ModRM part that the decoder accepts is what `encodeModRM` writes, and the instruction is not too long. -/
theorem withModRM_eq_ok {m : Mode} {pre : List Prefix} {fixed : Nat} {bs rest : List Byte}
    {judge : BitVec 3 → RM → Except DecodeError Instr} {i : Instr}
    (h : withModRM m pre fixed bs judge = .ok (i, rest)) :
    ∃ reg rm, rm.wf (addr16 m pre) = true ∧ encodeModRM reg rm ++ rest = bs ∧ encodedLen pre fixed rm ≤ maxLen ∧
      judge reg rm = .ok i := by
  rw [withModRM, nextByte_eq_ok] at h
  obtain ⟨b, t, rfl, h⟩ := h
  cases hrm : parseRM (addr16 m pre) (b.extractLsb' 6 2) (b.extractLsb' 0 3) t with
  | none => simp [hrm] at h
  | some r =>
    obtain ⟨rm, t'⟩ := r
    simp only [hrm, error_ite_eq_ok, map_eq_ok, Prod.mk.injEq] at h
    obtain ⟨hlen, j, hj, rfl, rfl⟩ := h
    obtain ⟨hwf, hmod, hlow, htail⟩ := spells_of_parseRM hrm
    refine ⟨b.extractLsb' 3 3, rm, hwf, ?_, Nat.le_of_not_lt hlen, hj⟩
    rw [encodeModRM, hmod, hlow, List.cons_append, sib_append_fields, htail]

/-- What the legacy shape accepts is well-formed, and it read that instruction's bytes. -/
theorem encode_of_decodeLegacy {m : Mode} {pre : List Prefix} {bs rest : List Byte} {i : Instr}
    (hp : ∀ p ∈ pre, p.existsIn m = true) (h : decodeLegacy m pre bs = .ok (i, rest)) :
    i.wf m = true ∧ encode i ++ rest = pre.map Prefix.toByte ++ 0x0F :: bs := by
  simp only [decodeLegacy, nextByte_eq_ok, error_ite_eq_ok, ne_eq, not_not] at h
  obtain ⟨_, _, rfl, rfl, _, t, rfl, rfl, h⟩ := h
  obtain ⟨reg, rm, hrm, rfl, hlen, h⟩ := withModRM_eq_ok h
  obtain ⟨hres, h⟩ := error_ite_eq_ok.1 h
  have hpre : legacyPrefixes m pre = true := by
    simp only [legacyPrefixes, List.all_eq_true, List.any_eq_true, not_exists, not_and] at hres ⊢
    exact fun p hmem => by simp [hres p hmem, hp p hmem]
  have hbytes : encodeLegacy pre reg rm ++ rest =
      pre.map Prefix.toByte ++ 0x0F :: 0x38 :: 0x0B :: (encodeModRM reg rm ++ rest) := by simp [encodeLegacy]
  cases ho : hasOpSize pre with
  | false =>
    rw [ho] at h
    cases h
    exact ⟨by simp [Instr.wf, Instr.len, hlen, hpre, ho, hrm], hbytes⟩
  | true =>
    rw [ho] at h
    cases h
    exact ⟨by simp [Instr.wf, Instr.len, hlen, hpre, ho, hrm], hbytes⟩

/-! ## VEX and EVEX prefixes -/

/-- V1 and V2 are made of the free fields of R75 and of their fixed bits. -/
theorem Vex.byte1_ofBytes (v1 v2 : Byte) (h : v1.extractLsb' 0 5 = 2) : (Vex.ofBytes v1 v2).byte1 = v1 :=
  (by decide : ∀ b : Byte, b.extractLsb' 0 5 = 2 → (Vex.ofBytes b 0).byte1 = b) v1 h

theorem Vex.byte2_ofBytes (v1 v2 : Byte) (l : BitVec 1) (h : v2.extractLsb' 0 2 = 1) (hl : v2.getLsbD 2 = (l == 1)) :
    (Vex.ofBytes v1 v2).byte2 l = v2 :=
  (by decide : ∀ (l : BitVec 1) (b : Byte), b.extractLsb' 0 2 = 1 → b.getLsbD 2 = (l == 1) →
    (Vex.ofBytes 0 b).byte2 l = b) l v2 h hl

/-- P0, P1 and P2 are made of the free fields of R77 and of their fixed bits. -/
theorem Evex.byte0_ofBytes (p0 p1 p2 : Byte) (h : p0.extractLsb' 0 2 = 2) (hr : p0.extractLsb' 2 2 = 0) :
    (Evex.ofBytes p0 p1 p2).byte0 = p0 :=
  (by decide : ∀ b : Byte, b.extractLsb' 0 2 = 2 → b.extractLsb' 2 2 = 0 → (Evex.ofBytes b 0 0).byte0 = b) p0 h hr

theorem Evex.byte1_ofBytes (p0 p1 p2 : Byte) (h : p1.extractLsb' 0 2 = 1) (hr : p1.getLsbD 2 = true) :
    (Evex.ofBytes p0 p1 p2).byte1 = p1 :=
  (by decide : ∀ b : Byte, b.extractLsb' 0 2 = 1 → b.getLsbD 2 = true → (Evex.ofBytes 0 b 0).byte1 = b) p1 h hr

theorem Evex.byte2_ofBytes (p0 p1 p2 : Byte) (hr : p2.getLsbD 4 = false) :
    (Evex.ofBytes p0 p1 p2).byte2 (p2.extractLsb' 5 2) = p2 :=
  (by decide : ∀ b : Byte, b.getLsbD 4 = false → (Evex.ofBytes 0 0 b).byte2 (b.extractLsb' 5 2) = b) p2 hr

/-- The VEX bytes that were read are the ones written for their fields. -/
theorem encodeVex_ofBytes {v1 v2 : Byte} {l : BitVec 1} (hmap : v1.extractLsb' 0 5 = 2) (hpp : v2.extractLsb' 0 2 = 1)
    (hl : v2.getLsbD 2 = (l == 1)) (pre : List Prefix) (reg : BitVec 3) (rm : RM) (rest : List Byte) :
    encodeVex l pre (.ofBytes v1 v2) reg rm ++ rest =
      pre.map Prefix.toByte ++ 0xC4 :: v1 :: v2 :: 0x0B :: (encodeModRM reg rm ++ rest) := by
  simp only [encodeVex, Vex.byte1_ofBytes v1 v2 hmap, Vex.byte2_ofBytes v1 v2 l hpp hl, List.append_assoc,
    List.cons_append, List.nil_append]

/-- The same of the EVEX bytes, where none of R92's patterns is in them. -/
theorem encodeEvex_ofBytes {p0 p1 p2 : Byte} (hmap : p0.extractLsb' 0 2 = 2) (hpp : p1.extractLsb' 0 2 = 1)
    (h0 : p0.extractLsb' 2 2 = 0) (h1 : p1.getLsbD 2 = true) (hb : p2.getLsbD 4 = false) (pre : List Prefix)
    (reg : BitVec 3) (rm : RM) (rest : List Byte) :
    encodeEvex (p2.extractLsb' 5 2) pre (.ofBytes p0 p1 p2) reg rm ++ rest =
      pre.map Prefix.toByte ++ 0x62 :: p0 :: p1 :: p2 :: 0x0B :: (encodeModRM reg rm ++ rest) := by
  simp only [encodeEvex, Evex.byte0_ofBytes p0 p1 p2 hmap h0, Evex.byte1_ofBytes p0 p1 p2 hpp h1,
    Evex.byte2_ofBytes p0 p1 p2 hb, List.append_assoc, List.cons_append, List.nil_append]

theorem Vex.wf_iff (m : Mode) (v : Vex) : v.wf m = true ↔ ¬(m ≠ .bits64 ∧ v.extended = true) := by
  simp only [Vex.wf, Bool.or_eq_true, beq_iff_eq, Bool.not_eq_true', not_and_or, not_not, ne_eq, Bool.not_eq_true]

/-- What the VEX shape accepts is well-formed, and it read that instruction's bytes. -/
theorem encode_of_decodeVex {m : Mode} {pre : List Prefix} {bs rest : List Byte} {i : Instr}
    (h : decodeVex m pre bs = .ok (i, rest)) :
    i.wf m = true ∧ encode i ++ rest = pre.map Prefix.toByte ++ 0xC4 :: bs := by
  simp only [decodeVex, nextByte_eq_ok, error_ite_eq_ok, not_or, ne_eq, not_not] at h
  obtain ⟨v1, _, rfl, -, v2, _, rfl, _, t, rfl, ⟨rfl, -⟩, h⟩ := h
  obtain ⟨reg, rm, hrm, rfl, hlen, h⟩ := withModRM_eq_ok h
  simp only [error_ite_eq_ok, not_or, not_not, Bool.not_eq_true, Bool.not_eq_false'] at h
  obtain ⟨⟨hmap, hpp⟩, hpre, hext, h⟩ := h
  have hwf : (decide (encodedLen pre 4 rm ≤ maxLen) &&
      (vexPrefixes pre && (Vex.ofBytes v1 v2).wf m && rm.wf (addr16 m pre))) = true := by
    simp [hlen, vexPrefixes, hpre, (Vex.wf_iff m (.ofBytes v1 v2)).2 hext, hrm]
  cases hl : v2.getLsbD 2 with
  | false =>
    rw [hl] at h
    cases h
    exact ⟨hwf, encodeVex_ofBytes (l := 0#1) hmap hpp hl pre reg rm rest⟩
  | true =>
    rw [hl] at h
    cases h
    exact ⟨hwf, encodeVex_ofBytes (l := 1#1) hmap hpp hl pre reg rm rest⟩

/-- The payload bytes hold none of R92's reserved patterns. -/
theorem evexReserved_eq_false (p0 p1 p2 : Byte) :
    evexReserved p0 p1 p2 = false ↔
      p0.extractLsb' 2 2 = 0 ∧ p1.getLsbD 2 = true ∧ p2.getLsbD 4 = false ∧ p2.extractLsb' 5 2 ≠ 3 ∧
        ¬(p2.getLsbD 7 = true ∧ p2.extractLsb' 0 3 = 0) := by
  simp only [evexReserved, Bool.or_eq_false_iff, bne_eq_false_iff_eq, Bool.not_eq_false', beq_eq_false_iff_ne,
    Bool.and_eq_false_iff, not_and_or, Bool.not_eq_true, and_assoc, ne_eq]

theorem Evex.wf_iff (m : Mode) (e : Evex) :
    e.wf m = true ↔ ¬(m ≠ .bits64 ∧ e.extended = true) ∧ ¬(e.z = true ∧ e.aaa = 0) := by
  simp only [Evex.wf, Bool.and_eq_true, Bool.or_eq_true, beq_iff_eq, Bool.not_eq_true', not_and_or, not_not, ne_eq,
    Bool.not_eq_true, Bool.and_eq_false_iff, beq_eq_false_iff_ne]

/-- The three EVEX forms are well-formed under one condition. -/
theorem evexInstr_wf (m : Mode) (ll : BitVec 2) (pre : List Prefix) (e : Evex) (reg : BitVec 3) (rm : RM) :
    (evexInstr ll pre e reg rm).wf m =
      (decide (encodedLen pre 5 rm ≤ maxLen) && (vexPrefixes pre && e.wf m && rm.wf (addr16 m pre))) := by
  unfold evexInstr
  split_ifs <;> rfl

/-- The EVEX form that L'L selects is written with that L'L. -/
theorem encode_evexInstr {ll : BitVec 2} (hll : ll ≠ 3) (pre : List Prefix) (e : Evex) (reg : BitVec 3) (rm : RM) :
    encode (evexInstr ll pre e reg rm) = encodeEvex ll pre e reg rm := by
  obtain rfl | rfl | rfl := (by decide : ∀ ll : BitVec 2, ll ≠ 3 → ll = 0 ∨ ll = 1 ∨ ll = 2) ll hll <;> rfl

/-- What the EVEX shape accepts is well-formed, and it read that instruction's bytes. -/
theorem encode_of_decodeEvex {m : Mode} {pre : List Prefix} {bs rest : List Byte} {i : Instr}
    (h : decodeEvex m pre bs = .ok (i, rest)) :
    i.wf m = true ∧ encode i ++ rest = pre.map Prefix.toByte ++ 0x62 :: bs := by
  simp only [decodeEvex, nextByte_eq_ok, error_ite_eq_ok, not_or, ne_eq, not_not] at h
  obtain ⟨p0, _, rfl, -, p1, _, rfl, p2, _, rfl, _, t, rfl, ⟨rfl, hmap, hpp⟩, h⟩ := h
  obtain ⟨reg, rm, hrm, rfl, hlen, h⟩ := withModRM_eq_ok h
  simp only [error_ite_eq_ok, Bool.not_eq_true, Bool.not_eq_false', evexReserved_eq_false] at h
  obtain ⟨⟨h0, h1, hb, hll, hz⟩, hpre, hext, h⟩ := h
  cases h
  have hwf := (Evex.wf_iff m (.ofBytes p0 p1 p2)).2 ⟨hext, hz⟩
  refine ⟨by simp [evexInstr_wf, hlen, vexPrefixes, hpre, hwf, hrm], ?_⟩
  rw [encode_evexInstr hll, encodeEvex_ofBytes hmap hpp h0 h1 hb]

/-- What the decoder answers is well-formed, and it read that instruction's bytes. -/
theorem encode_of_decode {m : Mode} {bs rest : List Byte} {i : Instr} (h : decode m bs = .ok (i, rest)) :
    i.wf m = true ∧ encode i ++ rest = bs := by
  obtain ⟨hbytes, hexists⟩ := bytes_of_scanPrefixes m bs
  rw [decode, decodeBody, nextByte_eq_ok] at h
  obtain ⟨b, t, hb, h⟩ := h
  rw [hb] at hbytes
  rw [← hbytes]
  split_ifs at h with h0F hC4 h62
  · subst h0F
    exact encode_of_decodeLegacy hexists h
  · subst hC4
    exact encode_of_decodeVex h
  · subst h62
    exact encode_of_decodeEvex h

/-! ## The round trip from an instruction -/

/-- The prefixes of a well-formed instruction exist in its mode. -/
theorem existsIn_of_legacyPrefixes {m : Mode} {pre : List Prefix} (h : legacyPrefixes m pre = true) :
    ∀ p ∈ pre, p.existsIn m = true :=
  fun p hp => (Bool.and_eq_true_iff.1 (List.all_eq_true.1 h p hp)).2

theorem any_isReserved_of_legacyPrefixes {m : Mode} {pre : List Prefix} (h : legacyPrefixes m pre = true) :
    pre.any Prefix.isReserved = false := by
  rw [List.any_eq_false]
  intro p hp
  simpa using (Bool.and_eq_true_iff.1 (List.all_eq_true.1 h p hp)).1

/-- The bits that make C4 begin a VEX form outside 64-bit mode are those of a well-formed one. -/
theorem Vex.introduced_of_wf {m : Mode} {v : Vex} (h : v.wf m = true) : m = .bits64 ∨ v.r = false ∧ v.x = false := by
  rw [Vex.wf_iff] at h
  by_cases hm : m = .bits64
  · exact .inl hm
  · simp_all [Vex.extended]

theorem Evex.introduced_of_wf {m : Mode} {e : Evex} (h : e.wf m = true) :
    m = .bits64 ∨ e.r = false ∧ e.x = false := by
  rw [Evex.wf_iff] at h
  by_cases hm : m = .bits64
  · exact .inl hm
  · simp_all [Evex.extended]

/-- The encoding of a well-formed VEX form passes every check of the decoder. -/
theorem decode_encodeVex_of_wf {m : Mode} {pre : List Prefix} {v : Vex} {reg : BitVec 3} {rm : RM} (l : BitVec 1)
    (rest : List Byte) (hlen : encodedLen pre 4 rm ≤ maxLen)
    (h : (vexPrefixes pre && v.wf m && rm.wf (addr16 m pre)) = true) :
    decode m (encodeVex l pre v reg rm ++ rest) =
      if l = 1 then .ok (.vpmulhrswVex256 pre v reg rm, rest) else .ok (.vpmulhrswVex128 pre v reg rm, rest) := by
  simp only [Bool.and_eq_true, vexPrefixes] at h
  obtain ⟨⟨hpre, hv⟩, hrm⟩ := h
  rw [decode_encodeVex m pre v l reg rm rest (existsIn_of_beforeVex hpre) hrm (Vex.introduced_of_wf hv),
    if_neg (Nat.not_lt.2 hlen), if_neg (by simp [hpre]), if_neg ((Vex.wf_iff m v).1 hv)]

/-- The encoding of a well-formed EVEX form passes every check of the decoder. -/
theorem decode_encodeEvex_of_wf {m : Mode} {pre : List Prefix} {e : Evex} {reg : BitVec 3} {rm : RM} {ll : BitVec 2}
    (hll : ll ≠ 3) (rest : List Byte) (h : (evexInstr ll pre e reg rm).wf m = true) :
    decode m (encodeEvex ll pre e reg rm ++ rest) = .ok (evexInstr ll pre e reg rm, rest) := by
  simp only [evexInstr_wf, Bool.and_eq_true, vexPrefixes, decide_eq_true_eq] at h
  obtain ⟨hlen, ⟨hpre, he⟩, hrm⟩ := h
  obtain ⟨hext, hz⟩ := (Evex.wf_iff m e).1 he
  rw [decode_encodeEvex m pre e ll reg rm rest (existsIn_of_beforeVex hpre) hrm (Evex.introduced_of_wf he),
    if_neg (Nat.not_lt.2 hlen), if_neg (by simpa using not_or.2 ⟨hll, hz⟩), if_neg (by simp [hpre]), if_neg hext]

/-- The encoding of a legacy form passes every check of the decoder, and prefix 66 tells the two forms apart. -/
theorem decode_encodeLegacy_of_wf {m : Mode} {pre : List Prefix} {reg : BitVec 3} {rm : RM}
    (rest : List Byte) (hlen : encodedLen pre 3 rm ≤ maxLen) (hpre : legacyPrefixes m pre = true)
    (hrm : rm.wf (addr16 m pre) = true) :
    decode m (encodeLegacy pre reg rm ++ rest) =
      if hasOpSize pre then .ok (.pmulhrswXmm pre reg rm, rest) else .ok (.pmulhrswMm pre reg rm, rest) := by
  rw [decode_encodeLegacy m pre reg rm rest (existsIn_of_legacyPrefixes hpre) hrm, if_neg (Nat.not_lt.2 hlen),
    if_neg (by simp [any_isReserved_of_legacyPrefixes hpre])]

/-- A well-formed instruction is what its encoding decodes to. -/
theorem decode_encode {m : Mode} {i : Instr} (h : i.wf m = true) (rest : List Byte) :
    decode m (encode i ++ rest) = .ok (i, rest) := by
  obtain ⟨hlen, hi⟩ := Bool.and_eq_true_iff.1 h
  have hlen := of_decide_eq_true hlen
  cases i with
  | pmulhrswMm pre reg rm =>
    simp only [Bool.and_eq_true, Bool.not_eq_true'] at hi
    obtain ⟨⟨hpre, ho⟩, hrm⟩ := hi
    rw [encode, decode_encodeLegacy_of_wf rest hlen hpre hrm, ho]
    rfl
  | pmulhrswXmm pre reg rm =>
    simp only [Bool.and_eq_true] at hi
    obtain ⟨⟨hpre, ho⟩, hrm⟩ := hi
    rw [encode, decode_encodeLegacy_of_wf rest hlen hpre hrm, ho]
    rfl
  | vpmulhrswVex128 pre v reg rm => exact decode_encodeVex_of_wf 0 rest hlen hi
  | vpmulhrswVex256 pre v reg rm => exact decode_encodeVex_of_wf 1 rest hlen hi
  | vpmulhrswEvex128 pre e reg rm => exact decode_encodeEvex_of_wf (ll := 0) (by decide) rest h
  | vpmulhrswEvex256 pre e reg rm => exact decode_encodeEvex_of_wf (ll := 1) (by decide) rest h
  | vpmulhrswEvex512 pre e reg rm => exact decode_encodeEvex_of_wf (ll := 2) (by decide) rest h

end Sys2Proof

open Sys2Proof in
/-- Settles O40: the scan of the prefixes, ModRM and each shape read what the encoder wrote, and the checks pass. -/
theorem decodeOfEncodeIsTheInstruction : Obligations.DecodeOfEncodeIsTheInstruction :=
  fun _ _ rest h => decode_encode h rest

open Sys2Proof in
/-- Settles O41: each part of the decoder reads the bytes that the encoder writes for its answer. -/
theorem encodeOfDecodeIsTheBytes : Obligations.EncodeOfDecodeIsTheBytes :=
  fun _ _ _ _ h => encode_of_decode h

end

section
/-! PROOFS. The lane function over its whole range: closed forms, bounds, rounding and laws (40_mulhrs_lane.md). -/

namespace Sys2Proof.Machine

variable (a b : Lane)

theorem toInt_lane_bounds : -32768 ≤ a.toInt ∧ a.toInt ≤ 32767 :=
  ⟨BitVec.le_toInt a, Int.le_sub_one_of_lt (BitVec.toInt_lt (x := a))⟩

/-- The product of two lanes (R111). -/
theorem laneProduct_bounds : -1073709056 ≤ a.toInt * b.toInt ∧ a.toInt * b.toInt ≤ 1073741824 := by
  obtain ⟨ha, ha'⟩ := toInt_lane_bounds a
  obtain ⟨hb, hb'⟩ := toInt_lane_bounds b
  constructor <;> nlinarith

/-- 0x8000 is the smallest lane. -/
theorem toInt_eq_min_iff : a.toInt = -32768 ↔ a = 0x8000 := by
  rw [← BitVec.toInt_inj]
  rfl

/-- But for one pair of lanes the product stays 2^15 below the largest one. -/
theorem laneProduct_le_of_not_min (h : ¬(a = 0x8000 ∧ b = 0x8000)) : a.toInt * b.toInt ≤ 1073709056 := by
  obtain ⟨ha, ha'⟩ := toInt_lane_bounds a
  obtain ⟨hb, hb'⟩ := toInt_lane_bounds b
  rcases not_and_or.1 h with h | h
  · have : -32767 ≤ a.toInt := by have := mt (toInt_eq_min_iff a).1 h; omega
    nlinarith
  · have : -32767 ≤ b.toInt := by have := mt (toInt_eq_min_iff b).1 h; omega
    nlinarith

theorem roundedQuotient_bounds :
    -32767 ≤ (a.toInt * b.toInt + 16384) / 32768 ∧ (a.toInt * b.toInt + 16384) / 32768 ≤ 32768 := by
  obtain ⟨hge, hle⟩ := laneProduct_bounds a b
  omega

/-- But for one pair of lanes the result is the rounded quotient itself (R115). -/
theorem toInt_mulhrs16 (h : ¬(a = 0x8000 ∧ b = 0x8000)) :
    (mulhrs16 a b).toInt = (a.toInt * b.toInt + 16384) / 32768 := by
  obtain ⟨hge, -⟩ := roundedQuotient_bounds a b
  have hle := laneProduct_le_of_not_min a b h
  rw [mulhrs16_eq_roundedProduct, toInt_roundedProduct a b (by omega) (by omega)]

/-- The rounded quotient leaves the signed 16-bit range for one pair only (R115). -/
theorem roundedQuotient_eq_max_iff :
    (a.toInt * b.toInt + 16384) / 32768 = 32768 ↔ a = 0x8000 ∧ b = 0x8000 := by
  constructor
  · intro h
    by_contra hne
    have hle := laneProduct_le_of_not_min a b hne
    omega
  · rintro ⟨rfl, rfl⟩
    decide

/-- The second closed form of R112: the rounding addition on the product itself does not wrap. -/
theorem mulhrs16_eq_sshiftRight :
    mulhrs16 a b = ((BitVec.ofInt 32 (a.toInt * b.toInt) + 0x4000).sshiftRight 15).extractLsb' 0 16 := by
  obtain ⟨hge, hle⟩ := laneProduct_bounds a b
  have hsum : (BitVec.ofInt 32 (a.toInt * b.toInt) + 0x4000).toInt = a.toInt * b.toInt + 16384 := by
    rw [BitVec.toInt_add, toInt_ofInt_laneProduct]
    exact Int.bmod_eq_of_le (by simp; omega) (by simp; omega)
  rw [mulhrs16_eq_roundedProduct, extractLsb'_sshiftRight _ (by decide), extractLsb'_eq_ofInt_ediv _ (by decide),
    hsum]
  rfl

theorem mulhrs16_comm : mulhrs16 a b = mulhrs16 b a := by
  rw [mulhrs16, mulhrs16, Int.mul_comm]

theorem mulhrs16_zero : mulhrs16 a 0 = 0 := by
  have h0 : (0 : Lane).toInt = 0 := rfl
  rw [mulhrs16_eq_roundedProduct, roundedProduct, h0, Int.mul_zero]
  rfl

/-- 0x4000 is one half in the fixed-point reading: the result is half the operand, rounded up (R116 (e)). -/
theorem mulhrs16_half : mulhrs16 a 0x4000 = BitVec.ofInt 16 ((a.toInt + 1) / 2) := by
  have hc : (0x4000 : Lane).toInt = 16384 := rfl
  have hq : (a.toInt * 16384 + 16384) / 32768 = (a.toInt + 1) / 2 := by omega
  rw [mulhrs16_eq_roundedProduct, roundedProduct, hc, hq]

/-- 0x8000 is minus one in the fixed-point reading (R116 (f)). -/
theorem mulhrs16_minusOne : mulhrs16 a 0x8000 = -a := by
  have hc : (0x8000 : Lane).toInt = -32768 := rfl
  have hq : (a.toInt * -32768 + 16384) / 32768 = -a.toInt := by omega
  rw [mulhrs16_eq_roundedProduct, roundedProduct, hc, hq, BitVec.ofInt_neg, BitVec.ofInt_toInt]

end Sys2Proof.Machine

open Sys2Proof.Machine

/-- Settles O3: both closed forms are divisions of the product, the second with the rounding added first. -/
theorem laneIsRoundedQuotient : Obligations.LaneIsRoundedQuotient :=
  fun a b => ⟨mulhrs16_eq_roundedProduct a b, mulhrs16_eq_sshiftRight a b⟩

/-- Settles O4: the bounds of the product, and that bits 17:0 after either shift are bits 31:14 of it. -/
theorem laneProductFitsAndShiftKindIsIrrelevant : Obligations.LaneProductFitsAndShiftKindIsIrrelevant := by
  intro a b
  obtain ⟨hge, hle⟩ := laneProduct_bounds a b
  refine ⟨hge, hle, toInt_ofInt_laneProduct a b, ?_, extractLsb'_ushiftRight _, ?_, mulhrs16_eq_ushiftRight a b⟩
  · rw [extractLsb'_sshiftRight _ (by decide), extractLsb'_ushiftRight]
  · exact mulhrs16_eq_ushiftRight a b

/-- Settles O5: only the product of the two smallest lanes leaves the range. -/
theorem laneOverflowsForOnePairOnly : Obligations.LaneOverflowsForOnePairOnly := by
  refine ⟨fun a b => ?_, by decide, by decide, by decide⟩
  obtain ⟨hge, hle⟩ := roundedQuotient_bounds a b
  exact ⟨hge, hle, roundedQuotient_eq_max_iff a b, toInt_mulhrs16 a b⟩

/-- Settles O6: the quotient of the division by 32768 after adding half of it, as an interval for the product. -/
theorem laneRoundsToNearestTiesUp : Obligations.LaneRoundsToNearestTiesUp := by
  refine ⟨fun a b h => ?_, by decide, by decide, by decide⟩
  rw [toInt_mulhrs16 a b h]
  omega

/-- Settles O7: each law from the closed form; 1 times one half shows that the function is not odd. -/
theorem laneLaws : Obligations.LaneLaws :=
  ⟨mulhrs16_comm, mulhrs16_zero, ⟨1, 0x4000, by decide⟩, by decide, mulhrs16_half, mulhrs16_minusOne⟩

end

section
/-! PROOFS. The seven forms complete from every ready state: what they write, and what they leave unchanged. -/

namespace Sys2Proof.Machine

/-! ## The last source of a ready form -/

theorem kl_le (f : Form) : Form.kl f ≤ 32 := by
  cases f <;> decide

/-- Where the last source is ready it has a value: the register's, or one whose selected lanes are those of memory. -/
theorem source_of_ready {s : State} {f : Form} {lanes : Nat → Bool} {pre : List Prefix} {xb bb : Bool} {len : Nat}
    {rm : RM} (h : SourceReady f lanes pre xb bb len rm s) (reg : BitVec 3 → VReg) :
    ∃ src, s.source f lanes pre xb bb len reg rm = .ok src ∧ (∀ r, rm = .reg r → src = reg r) ∧
      ∀ m, rm = .mem m → ∀ j < Form.kl f, lanes j = true →
        lane src j = memoryLane s (s.operandAddress (s.access f pre xb bb len m)) j := by
  cases rm with
  | reg r => exact ⟨reg r, rfl, by simp, by simp⟩
  | mem m =>
    refine ⟨_, source_of_none (operandStop_of_ready (h m rfl)) _, by simp, fun m' hm j hj hl => ?_⟩
    cases hm
    have hbytes : Form.bytes f = 2 * Form.kl f := by cases f <;> rfl
    have hkl := kl_le f
    exact lane_readSelected _ lanes _ _ j (by omega) (by omega) hl

/-- The same where the registers are vector registers. -/
theorem vectorSource_of_ready {s : State} {f : Form} {lanes : Nat → Bool} {pre : List Prefix} {xb bb : Bool}
    {len : Nat} {rm : RM} (h : SourceReady f lanes pre xb bb len rm s) (reg : BitVec 3 → BitVec 5) :
    ∃ src, s.source f lanes pre xb bb len (fun r => s.v (reg r)) rm = .ok src ∧
      ∀ j < Form.kl f, lanes j = true → lane src j = sourceLane s f pre xb bb len reg j rm := by
  obtain ⟨src, hsrc, hreg, hmem⟩ := source_of_ready h (fun r => s.v (reg r))
  refine ⟨src, hsrc, fun j hj hl => ?_⟩
  cases rm with
  | reg r => rw [hreg r rfl, sourceLane]
  | mem m => exact hmem m rfl j hj hl

/-! ## VEX and EVEX -/

/-- A ready VEX form writes the products of its lanes, and 0 above them (R130, R131). -/
theorem vexOperation_completes {f : Form} {pre : List Prefix} {v : Vex} {reg : BitVec 3} {rm : RM} {s : State}
    (hready : Ready f (encodedLen pre 4 rm) s)
    (hsource : SourceReady f allLanes pre v.x v.b (encodedLen pre 4 rm) rm s) :
    ∃ t, vexOperation f pre v reg rm s = .next t ∧
      t = { s with pc := s.pc + BitVec.ofNat 64 (encodedLen pre 4 rm), vec := t.vec } ∧
      (∀ n : BitVec 5, n ≠ num5 false v.r reg → t.v n = s.v n) ∧
      ∀ j < 32, lane (t.v (num5 false v.r reg)) j =
        if j < Form.kl f then
          roundedProduct (lane (s.v (v.vvvv.setWidth 5)) j)
            (sourceLane s f pre v.x v.b (encodedLen pre 4 rm) (fun r => num5 false v.b r) j rm)
        else 0 := by
  obtain ⟨src, hsrc, hlanes⟩ := vectorSource_of_ready hsource (fun r => num5 false v.b r)
  have hrun : vexOperation f pre v reg rm s = .next ((s.writeV (num5 false v.r reg)
      (mulhrsLanes (Form.kl f) (s.v (Vex.source1 v)) src)).advance (encodedLen pre 4 rm)) := by
    simp only [vexOperation, hsrc, run_of_value (gate_of_ready hready)]
  refine ⟨_, hrun, rfl, fun n hn => writeV_v_ne _ _ hn, fun j hj => ?_⟩
  rw [advance_v, writeV_v_self, lane_mulhrsLanes _ _ _ _ hj]
  split
  · next hk => rw [hlanes j hk rfl, mulhrs16_eq_roundedProduct]; rfl
  · rfl

/-- A ready EVEX form writes the products of the selected lanes, and merges or zeroes the others (R140, R145). -/
theorem evexOperation_completes {f : Form} {pre : List Prefix} {e : Evex} {reg : BitVec 3} {rm : RM} {s : State}
    (hready : Ready f (encodedLen pre 5 rm) s)
    (hsource : SourceReady f (s.writemask e.aaa) pre e.x e.b (encodedLen pre 5 rm) rm s) :
    ∃ t, evexOperation f pre e reg rm s = .next t ∧
      t = { s with pc := s.pc + BitVec.ofNat 64 (encodedLen pre 5 rm), vec := t.vec } ∧
      (∀ n : BitVec 5, n ≠ num5 e.rr e.r reg → t.v n = s.v n) ∧
      ∀ j < 32, lane (t.v (num5 e.rr e.r reg)) j =
        if j < Form.kl f then
          if e.aaa = 0 ∨ (s.opmask e.aaa).getLsbD j = true then
            roundedProduct (lane (s.v (BitVec.ofBool e.vv ++ e.vvvv)) j)
              (sourceLane s f pre e.x e.b (encodedLen pre 5 rm) (fun r => num5 e.x e.b r) j rm)
          else if e.z = true then 0
          else lane (s.v (num5 e.rr e.r reg)) j
        else 0 := by
  obtain ⟨src, hsrc, hlanes⟩ := vectorSource_of_ready hsource (fun r => num5 e.x e.b r)
  have hrun : evexOperation f pre e reg rm s = .next ((s.writeV (num5 e.rr e.r reg)
      (mulhrsMasked (Form.kl f) (s.writemask e.aaa) e.z (s.v (num5 e.rr e.r reg)) (s.v (Evex.source1 e)) src)).advance
        (encodedLen pre 5 rm)) := by
    simp only [evexOperation, hsrc, run_of_value (gate_of_ready hready)]
  have hmask : ∀ j, s.writemask e.aaa j = true ↔ e.aaa = 0 ∨ (s.opmask e.aaa).getLsbD j = true := by
    simp [State.writemask]
  refine ⟨_, hrun, rfl, fun n hn => writeV_v_ne _ _ hn, fun j hj => ?_⟩
  rw [advance_v, writeV_v_self, lane_mulhrsMasked _ _ _ _ _ _ _ hj]
  simp only [← hmask]
  split
  · next hk =>
    split
    · next hm => rw [hlanes j hk hm, mulhrs16_eq_roundedProduct]; rfl
    · rfl
  · rfl

/-! ## The legacy forms -/

theorem lane_setWidth {w : Nat} (x : BitVec w) (j : Nat) (hj : j < 32) :
    lane (x.setWidth 512) j = x.extractLsb' (16 * j) 16 := by
  ext i hi
  simp [lane, show 16 * j + i < 512 by omega]

theorem extractLsb'_setWidth_lane {w : Nat} (v : VReg) (j : Nat) (hw : 16 * j + 16 ≤ w) :
    (v.setWidth w).extractLsb' (16 * j) 16 = lane v j := by
  ext i hi
  simp [lane, show 16 * j + i < w by omega]

/-- The state that F-MMX leaves, where its last source has the value `src`. -/
theorem execPmulhrswMm_of_source {pre : List Prefix} {reg : BitVec 3} {rm : RM} {s : State} {src : VReg}
    (hready : Ready .mmx (encodedLen pre 3 rm) s)
    (hsrc : s.source .mmx allLanes pre (effectiveRex pre).x (effectiveRex pre).b (encodedLen pre 3 rm)
      (fun r => (s.mm r).setWidth 512) rm = .ok src) :
    execPmulhrswMm pre reg rm s = .next ((s.writeMm reg
      ((mulhrsLanes 4 ((s.mm reg).setWidth 512) src).setWidth 64)).advance (encodedLen pre 3 rm)) := by
  simp only [execPmulhrswMm, hsrc, run_of_value (gate_of_ready hready)]

/-- The state that F-SSE leaves, where its last source has the value `src`. -/
theorem execPmulhrswXmm_of_source {pre : List Prefix} {reg : BitVec 3} {rm : RM} {s : State} {src : VReg}
    (hready : Ready .sse (encodedLen pre 3 rm) s)
    (hsrc : s.source .sse allLanes pre (effectiveRex pre).x (effectiveRex pre).b (encodedLen pre 3 rm)
      (fun r => s.v (num5 false (effectiveRex pre).b r)) rm = .ok src) :
    execPmulhrswXmm pre reg rm s = .next ((s.writeXmm (num5 false (effectiveRex pre).r reg)
      ((mulhrsLanes 8 (s.v (num5 false (effectiveRex pre).r reg)) src).setWidth 128)).advance
        (encodedLen pre 3 rm)) := by
  simp only [execPmulhrswXmm, hsrc, run_of_value (gate_of_ready hready)]

theorem writeXmm_v_self (s : State) (n : BitVec 5) (v : BitVec 128) :
    (s.writeXmm n v).v n = (s.v n).extractLsb' 128 384 ++ v := writeV_v_self s n _

theorem extractLsb'_append_high (x : BitVec 384) (y : BitVec 128) : (x ++ y : VReg).extractLsb' 128 384 = x := by
  ext i hi
  rw [BitVec.getElem_extractLsb']
  erw [BitVec.getLsbD_append]
  simp [BitVec.getLsbD_eq_getElem hi]

theorem lane_append_low (x : BitVec 384) (y : BitVec 128) (j : Nat) (hj : j < 8) :
    lane (x ++ y : VReg) j = y.extractLsb' (16 * j) 16 := by
  ext i hi
  rw [lane, BitVec.getElem_extractLsb']
  erw [BitVec.getLsbD_append]
  simp [show 16 * j + i < 128 by omega]

end Sys2Proof.Machine

open Sys2Proof Sys2Proof.Machine

/-- Settles O8: the products are formed in the low four lanes of the two operands, and the write leaves its image in
the x87 register behind. -/
theorem mmxFormMultipliesFourLanes : Obligations.MmxFormMultipliesFourLanes := by
  intro pre reg rm s hready hsource
  obtain ⟨src, hsrc, hreg, hmem⟩ := source_of_ready hsource (fun r => (s.mm r).setWidth 512)
  refine ⟨_, execPmulhrswMm_of_source hready hsrc, rfl, fun n hn => writeMm_x87_ne s _ hn, ?_, fun j hj => ?_⟩
  · rw [advance_x87, writeMm_x87_self, extract_mmxImage]
    rfl
  · rw [advance_mm, writeMm_mm_self, extractLsb'_setWidth_lane _ _ (by omega), lane_mulhrsLanes _ _ _ _ (by omega),
      if_pos hj, mulhrs16_eq_roundedProduct, lane_setWidth _ _ (by omega)]
    cases rm with
    | reg r => rw [hreg r rfl, lane_setWidth _ _ (by omega)]
    | mem m => rw [hmem m rfl j hj rfl]

/-- Settles O9: the value written is the kept upper part over the eight products. -/
theorem sseFormMultipliesEightLanesAndKeepsTheUpperBits :
    Obligations.SseFormMultipliesEightLanesAndKeepsTheUpperBits := by
  intro pre reg rm s hready hsource
  obtain ⟨src, hsrc, hlanes⟩ := vectorSource_of_ready hsource (fun r => num5 false (effectiveRex pre).b r)
  refine ⟨_, execPmulhrswXmm_of_source hready hsrc, rfl, fun n hn => writeV_v_ne s _ hn, ?_, fun j hj => ?_⟩
  · rw [advance_v, writeXmm_v_self, extractLsb'_append_high]
  · rw [advance_v, writeXmm_v_self, lane_append_low _ _ _ hj, extractLsb'_setWidth_lane _ _ (by omega),
      lane_mulhrsLanes _ _ _ _ (by omega), if_pos hj, mulhrs16_eq_roundedProduct, hlanes j hj rfl]

/-- Settles O10: the VEX operation at 128 bits, whose `KL` is 8. -/
theorem vex128FormMultipliesEightLanesAndZeroesTheRest :
    Obligations.Vex128FormMultipliesEightLanesAndZeroesTheRest :=
  fun _ _ _ _ _ hready hsource => vexOperation_completes hready hsource

/-- Settles O11: the VEX operation at 256 bits, whose `KL` is 16. -/
theorem vex256FormMultipliesSixteenLanesAndZeroesTheRest :
    Obligations.Vex256FormMultipliesSixteenLanesAndZeroesTheRest :=
  fun _ _ _ _ _ hready hsource => vexOperation_completes hready hsource

/-- Settles O12: the EVEX operation at 128 bits, whose `KL` is 8. -/
theorem evex128FormMultipliesTheLanesOfItsMask : Obligations.Evex128FormMultipliesTheLanesOfItsMask :=
  fun _ _ _ _ _ hready hsource => evexOperation_completes hready hsource

/-- Settles O13: the EVEX operation at 256 bits, whose `KL` is 16. -/
theorem evex256FormMultipliesTheLanesOfItsMask : Obligations.Evex256FormMultipliesTheLanesOfItsMask :=
  fun _ _ _ _ _ hready hsource => evexOperation_completes hready hsource

/-- Settles O14: the EVEX operation at 512 bits, where every lane is below `KL`. -/
theorem evex512FormMultipliesTheLanesOfItsMask : Obligations.Evex512FormMultipliesTheLanesOfItsMask := by
  intro pre e reg rm s hready hsource
  obtain ⟨t, hrun, hframe, hothers, hlanes⟩ := evexOperation_completes (reg := reg) hready hsource
  exact ⟨t, hrun, hframe, hothers, fun j hj => (hlanes j hj).trans (if_pos hj)⟩

end

section
/-! PROOFS. What any completed instruction did: its one register write and the advance of `pc`, and from that the
frame, the invariant of the sound states, and the length of the instruction. -/

namespace Sys2Proof.Machine

/-! ## The write of a completed instruction -/

/-- The states that an instruction of a form can leave before `pc` advances: `s` with one register written, by the
legacy forms as they write and by the others with a value of `VL` bits. -/
inductive Written (s : State) : Form → State → Prop
  | mm (n : BitVec 3) (v : BitVec 64) : Written s .mmx (s.writeMm n v)
  | xmm (n : BitVec 5) (v : BitVec 128) : Written s .sse (s.writeXmm n v)
  | vec {f : Form} (n : BitVec 5) (v : VReg) (hf : Form.isVexOrEvex f = true) (hv : v.toNat < 2 ^ Form.vl f) :
    Written s f (s.writeV n v)

/-- A value of `KL` lanes has `VL` bits. -/
theorem toNat_ofLanes_lt_vl (f : Form) (g : Nat → Lane) : (ofLanes g (Form.kl f)).toNat < 2 ^ Form.vl f := by
  have h : 16 * Form.kl f = Form.vl f := by cases f <;> rfl
  exact h ▸ toNat_ofLanes_lt g (Form.kl f)

theorem vexOperation_written {f : Form} (hf : Form.isVexOrEvex f = true) {pre : List Prefix} {v : Vex}
    {reg : BitVec 3} {rm : RM} {s t : State} (h : vexOperation f pre v reg rm s = .next t) :
    s.gate f (encodedLen pre 4 rm) = none ∧ ∃ u, Written s f u ∧ t = u.advance (encodedLen pre 4 rm) := by
  obtain ⟨hgate, src, -, ht⟩ := (run_eq_next _ _ _ _ _ _).1 h
  exact ⟨hgate, _, .vec _ _ hf (toNat_ofLanes_lt_vl f _), ht⟩

theorem evexOperation_written {f : Form} (hf : Form.isVexOrEvex f = true) {pre : List Prefix} {e : Evex}
    {reg : BitVec 3} {rm : RM} {s t : State} (h : evexOperation f pre e reg rm s = .next t) :
    s.gate f (encodedLen pre 5 rm) = none ∧ ∃ u, Written s f u ∧ t = u.advance (encodedLen pre 5 rm) := by
  obtain ⟨hgate, src, -, ht⟩ := (run_eq_next _ _ _ _ _ _).1 h
  exact ⟨hgate, _, .vec _ _ hf (toNat_ofLanes_lt_vl f _), ht⟩

/-- An instruction that completes passed its gate, wrote one register and advanced `pc` by its length. -/
theorem exec_written {i : Instr} {s t : State} (h : exec i s = .next t) :
    s.gate i.form i.len = none ∧ ∃ u, Written s i.form u ∧ t = u.advance i.len := by
  cases i with
  | pmulhrswMm pre reg rm =>
    obtain ⟨hgate, src, -, ht⟩ := (run_eq_next _ _ _ _ _ _).1 h
    exact ⟨hgate, _, .mm _ _, ht⟩
  | pmulhrswXmm pre reg rm =>
    obtain ⟨hgate, src, -, ht⟩ := (run_eq_next _ _ _ _ _ _).1 h
    exact ⟨hgate, _, .xmm _ _, ht⟩
  | vpmulhrswVex128 pre v reg rm => exact vexOperation_written rfl h
  | vpmulhrswVex256 pre v reg rm => exact vexOperation_written rfl h
  | vpmulhrswEvex128 pre e reg rm => exact evexOperation_written rfl h
  | vpmulhrswEvex256 pre e reg rm => exact evexOperation_written rfl h
  | vpmulhrswEvex512 pre e reg rm => exact evexOperation_written rfl h

/-- A write touches the x87 fields and the vector registers only. -/
theorem Written.frame {s u : State} {f : Form} (h : Written s f u) :
    u = { s with x87 := u.x87, fpuTag := u.fpuTag, fpuTop := u.fpuTop, vec := u.vec } := by
  cases h <;> rfl

theorem Written.vec_of_mmx {s u : State} (h : Written s .mmx u) : u.vec = s.vec := by
  cases h with
  | mm n v => rfl
  | vec n v hf hv => cases hf

theorem Written.x87_of_ne_mmx {s u : State} {f : Form} (h : Written s f u) (hf : f ≠ .mmx) :
    u.x87 = s.x87 ∧ u.fpuTag = s.fpuTag ∧ u.fpuTop = s.fpuTop := by
  cases h with
  | mm n v => exact absurd rfl hf
  | xmm n v => exact ⟨rfl, rfl, rfl⟩
  | vec n v hf hv => exact ⟨rfl, rfl, rfl⟩

theorem form_eq_mmx_iff (i : Instr) : i.form = .mmx ↔ ∃ pre reg rm, i = .pmulhrswMm pre reg rm := by
  cases i <;> simp [Instr.form]

theorem form_ne_mmx {i : Instr} (h : ∀ pre reg rm, i ≠ .pmulhrswMm pre reg rm) : i.form ≠ .mmx :=
  fun hf => by
    obtain ⟨pre, reg, rm, hi⟩ := (form_eq_mmx_iff i).1 hf
    exact h pre reg rm hi

/-! ## The invariant of the sound states -/

/-- Writing the low 128 bits gives the register no bit above those it had or could have. -/
theorem toNat_append_low_lt {x : VReg} {y : BitVec 128} {n : Nat} (hn : 128 ≤ n) (hx : x.toNat < 2 ^ n) :
    (x.extractLsb' 128 384 ++ y : VReg).toNat < 2 ^ n := by
  apply Nat.lt_pow_two_of_testBit
  intro i hi
  have hxi : x.getLsbD i = false := Nat.testBit_lt_two_pow (Nat.lt_of_lt_of_le hx (Nat.pow_le_pow_right (by decide) hi))
  rw [BitVec.testBit_toNat]
  erw [BitVec.getLsbD_append]
  rw [if_neg (by omega), BitVec.getLsbD_extractLsb', show 128 + (i - 128) = i by omega, hxi, Bool.and_false]

/-- A register write keeps every vector register within `MAXVL`, if the form exists under `MAXVL`. -/
theorem Written.vectors {s u : State} {f : Form} (h : Written s f u) (hf : Form.vl f ≤ s.config.maxvl.bits)
    (hs : ∀ n : BitVec 5, (s.v n).toNat < 2 ^ s.config.maxvl.bits) (n : BitVec 5) :
    (u.v n).toNat < 2 ^ s.config.maxvl.bits := by
  cases h with
  | mm m v => exact hs n
  | xmm m v =>
    by_cases hn : n = m
    · rw [hn, writeXmm_v_self]
      exact toNat_append_low_lt hf (hs m)
    · rw [State.writeXmm, writeV_v_ne _ _ hn]
      exact hs n
  | vec m v _ hv =>
    by_cases hn : n = m
    · rw [hn, writeV_v_self]
      exact Nat.lt_of_lt_of_le hv (Nat.pow_le_pow_right (by decide) hf)
    · rw [writeV_v_ne _ _ hn]
      exact hs n

/-- `pc` advances without wrapping: the gate refuses the top of the address space (R28). -/
theorem toNat_pc_advance {s : State} {len : Nat} (h : s.pcFits len = true) :
    (s.pc + BitVec.ofNat 64 len).toNat = s.pc.toNat + len := by
  have hlt : s.pc.toNat + len < 2 ^ 64 := by
    have := (pcFits_iff s len).1 h
    split at this <;> omega
  rw [BitVec.toNat_add, BitVec.toNat_ofNat, Nat.mod_eq_of_lt (a := len) (by omega), Nat.mod_eq_of_lt hlt]

/-- The write leaves `pc` to the advance. -/
theorem Written.advance_pc {s u : State} {f : Form} (h : Written s f u) (len : Nat) :
    (u.advance len).pc = s.pc + BitVec.ofNat 64 len := by
  cases h <;> rfl

/-- Every instruction keeps the sound states sound. -/
theorem Inv.exec {i : Instr} {s t : State} (hs : Inv s) (h : exec i s = .next t) : Inv t := by
  obtain ⟨hgate, u, hu, rfl⟩ := exec_written h
  obtain ⟨-, hpc, -, -, hvl, -⟩ := (gate_eq_none _ _ _).1 hgate
  have hframe := hu.frame
  refine ⟨?_, fun n => ?_, fun hm => ?_⟩
  · rw [advance_mem, hframe]
    exact hs.memory
  · rw [advance_v, advance_config, hframe]
    rw [hframe] at hu
    exact hu.vectors hvl hs.vectors n
  · have hmode : s.mode ≠ .bits64 := by rwa [advance_mode, hframe] at hm
    rw [hu.advance_pc, toNat_pc_advance hpc]
    simpa [hmode] using (pcFits_iff s _).1 hpc

/-! ## The length of an instruction -/

theorem one_le_len (i : Instr) : 1 ≤ i.len := by
  cases i <;> simp only [Instr.len, encodedLen] <;> omega

theorem len_le_of_wf {m : Mode} {i : Instr} (h : i.wf m = true) : i.len ≤ 15 :=
  of_decide_eq_true (Bool.and_eq_true_iff.1 h).1

end Sys2Proof.Machine

open Sys2Proof Sys2Proof.Machine

/-- Settles O19: a step that completes is one instruction, whose write keeps the vector registers within `MAXVL`
because its gate asks for that width, and whose `pc` stays below the top of the address space. -/
theorem stepKeepsTheStateSound : Obligations.StepKeepsTheStateSound := by
  intro s t hs h
  obtain ⟨-, i, rest, -, hi⟩ := (step_eq_next s t).1 h
  exact hs.exec hi

/-- Settles O20: at reset memory lists nothing and every vector register is 0. -/
theorem resetStateIsSound : Obligations.ResetStateIsSound := by
  refine ⟨Memory.wf_nil, fun n => ?_, fun _ => by decide⟩
  have h : State.reset.v n = BitVec.zero 512 := by simp [State.v, State.reset]
  exact (congrArg BitVec.toNat h).trans_lt (Nat.two_pow_pos _)

/-- Settles O15: an instruction writes one register, of the x87 file in F-MMX and of the vector file otherwise. -/
theorem everyInstructionLeavesTheRestUnchanged : Obligations.EveryInstructionLeavesTheRestUnchanged := by
  intro i s t h
  obtain ⟨-, u, hu, rfl⟩ := exec_written h
  have hframe := hu.frame
  refine ⟨?_, fun hi => ?_, fun hi => hu.x87_of_ne_mmx (form_ne_mmx hi), fun a => ?_⟩
  · rw [hframe]
    rfl
  · rw [(form_eq_mmx_iff i).2 hi] at hu
    exact hu.vec_of_mmx
  · rw [advance_mem, hframe]

/-- Settles O18: the decoder accepts well-formed instructions only, and the gate lets `pc` advance without wrapping. -/
theorem stepAdvancesPcByTheLength : Obligations.StepAdvancesPcByTheLength := by
  intro s t h
  obtain ⟨-, i, rest, hdecode, hi⟩ := (step_eq_next s t).1 h
  obtain ⟨hgate, u, hu, rfl⟩ := exec_written hi
  obtain ⟨-, hpc, -⟩ := (gate_eq_none _ _ _).1 hgate
  refine ⟨i, rest, hdecode, one_le_len i, len_le_of_wf (encode_of_decode hdecode).1, hu.advance_pc _, ?_, ?_⟩
  · rw [hu.advance_pc, toNat_pc_advance hpc]
  · rw [hu.advance_pc, toNat_pc_advance hpc]
    exact (pcFits_iff s _).1 hpc

end

section
/-! PROOFS. Noninterference: what an instruction answers on a state that differs where it does not look. -/

namespace Sys2Proof.Machine

/-! ## A change of state that a form does not see -/

/-- A change `g` of the state that a form does not see in `s` but through its writemask, and that its writes carry
along. -/
structure Unseen (g : State → State) (f : Form) (s : State) : Prop where
  gate : ∀ len, (g s).gate f len = s.gate f len
  mm : ∀ n, (g s).mm n = s.mm n
  v : ∀ n, (g s).v n = s.v n
  access : ∀ pre xb bb len a, (g s).access f pre xb bb len a = s.access f pre xb bb len a
  readOperand : ∀ lanes a, (g s).readOperand f lanes a = s.readOperand f lanes a
  writeMm : ∀ n v len, ((g s).writeMm n v).advance len = g ((s.writeMm n v).advance len)
  writeV : ∀ n v len, ((g s).writeV n v).advance len = g ((s.writeV n v).advance len)

/-! ## Only the lanes below `KL` of a writemask matter (43_vpmulhrsw_evex.md R144) -/

section Mask

variable {f : Form} {l l' : Nat → Bool} (hl : ∀ j < Form.kl f, l' j = l j)
include hl

theorem lane_of_byte_lt {i : Nat} (hi : i < Form.bytes f) : l' (i / 2) = l (i / 2) := by
  have hbytes : Form.bytes f ≤ 2 * Form.kl f := by cases f <;> decide
  exact hl _ (by omega)

theorem checkedBytes_congr (s : State) : s.checkedBytes f l' = s.checkedBytes f l := by
  refine List.filter_congr fun i hi => ?_
  rw [lane_of_byte_lt hl (List.mem_range.1 hi)]

theorem operandStop_congr (s : State) (a : Access) : s.operandStop f l' a = s.operandStop f l a := by
  simp only [State.operandStop, checkedBytes_congr hl]

omit hl in
theorem readSelected_congr {m m' : List Host.Cell} {sel sel' : Nat → Bool} {a n : Nat}
    (hsel : ∀ i < n, sel' i = sel i) (hm : ∀ i < n, sel i = true → Memory.read m' (a + i) = Memory.read m (a + i)) :
    Memory.readSelected m' sel' a n = Memory.readSelected m sel a n := by
  induction n with
  | zero => rfl
  | succ n ih =>
    have ih := ih (fun i hi => hsel i (by omega)) (fun i hi => hm i (by omega))
    rw [Memory.readSelected, Memory.readSelected, ih, hsel n (by omega)]
    cases h : sel n with
    | false => rfl
    | true => rw [hm n (by omega) h]

theorem readOperand_congr (s : State) (a : Access) : s.readOperand f l' a = s.readOperand f l a := by
  rw [State.readOperand, State.readOperand, operandStop_congr hl,
    readSelected_congr (fun i hi => lane_of_byte_lt hl hi) (fun _ _ _ => rfl)]

theorem mulhrsMasked_congr (z : Bool) (old a b : VReg) :
    mulhrsMasked (Form.kl f) l' z old a b = mulhrsMasked (Form.kl f) l z old a b := by
  refine eq_of_lanes fun j hj => ?_
  rw [lane_mulhrsMasked _ _ _ _ _ _ _ hj, lane_mulhrsMasked _ _ _ _ _ _ _ hj]
  split
  · next hk => rw [hl j hk]
  · rfl

/-- The last source is the same under an unseen change and an equivalent writemask. -/
theorem source_congr {g : State → State} {s : State} (hg : Unseen g f s) (pre : List Prefix) (xb bb : Bool)
    (len : Nat) {reg reg' : BitVec 3 → VReg} {rm : RM} (hreg : ∀ r, rm = .reg r → reg' r = reg r) :
    (g s).source f l' pre xb bb len reg' rm = s.source f l pre xb bb len reg rm := by
  cases rm with
  | reg r => rw [State.source, State.source, hreg r rfl]
  | mem m => rw [State.source, State.source, hg.access, hg.readOperand, readOperand_congr hl]

end Mask

/-! ## Each form carries an unseen change along -/

section Carry

variable {g : State → State} {s : State}

theorem execPmulhrswMm_of_unseen (hg : Unseen g .mmx s) (pre : List Prefix) (reg : BitVec 3) (rm : RM) :
    execPmulhrswMm pre reg rm (g s) = mapNext g (execPmulhrswMm pre reg rm s) := by
  apply run_eq_mapNext (hg.gate _)
  · exact source_congr (fun _ _ => rfl) hg _ _ _ _ fun r _ => by rw [hg.mm]
  · intro src
    simp only [hg.mm, hg.writeMm]

theorem execPmulhrswXmm_of_unseen (hg : Unseen g .sse s) (pre : List Prefix) (reg : BitVec 3) (rm : RM) :
    execPmulhrswXmm pre reg rm (g s) = mapNext g (execPmulhrswXmm pre reg rm s) := by
  apply run_eq_mapNext (hg.gate _)
  · exact source_congr (fun _ _ => rfl) hg _ _ _ _ fun r _ => hg.v _
  · intro src
    simp only [State.writeXmm, hg.v, hg.writeV]

theorem vexOperation_of_unseen {f : Form} (hg : Unseen g f s) (pre : List Prefix) (v : Vex) (reg : BitVec 3)
    (rm : RM) : vexOperation f pre v reg rm (g s) = mapNext g (vexOperation f pre v reg rm s) := by
  apply run_eq_mapNext (hg.gate _)
  · exact source_congr (fun _ _ => rfl) hg _ _ _ _ fun r _ => hg.v _
  · intro src
    simp only [hg.v, hg.writeV]

theorem evexOperation_of_unseen {f : Form} (hg : Unseen g f s) (pre : List Prefix) {e : Evex}
    (hmask : ∀ j < Form.kl f, (g s).writemask e.aaa j = s.writemask e.aaa j) (reg : BitVec 3) (rm : RM) :
    evexOperation f pre e reg rm (g s) = mapNext g (evexOperation f pre e reg rm s) := by
  apply run_eq_mapNext (hg.gate _)
  · exact source_congr hmask hg _ _ _ _ fun r _ => hg.v _
  · intro src
    simp only [hg.v, hg.writeV, mulhrsMasked_congr hmask]

/-- An instruction answers the same, up to a change of the state that it sees neither itself nor through its
writemask. -/
theorem exec_of_unseen (i : Instr) (hg : Unseen g i.form s) (hmask : (g s).writemask = s.writemask) :
    exec i (g s) = mapNext g (exec i s) := by
  have hm : ∀ aaa n, ∀ j < n, (g s).writemask aaa j = s.writemask aaa j := fun _ _ _ _ => by rw [hmask]
  cases i with
  | pmulhrswMm pre reg rm => exact execPmulhrswMm_of_unseen hg pre reg rm
  | pmulhrswXmm pre reg rm => exact execPmulhrswXmm_of_unseen hg pre reg rm
  | vpmulhrswVex128 pre v reg rm => exact vexOperation_of_unseen hg pre v reg rm
  | vpmulhrswVex256 pre v reg rm => exact vexOperation_of_unseen hg pre v reg rm
  | vpmulhrswEvex128 pre e reg rm => exact evexOperation_of_unseen hg pre (hm _ _) reg rm
  | vpmulhrswEvex256 pre e reg rm => exact evexOperation_of_unseen hg pre (hm _ _) reg rm
  | vpmulhrswEvex512 pre e reg rm => exact evexOperation_of_unseen hg pre (hm _ _) reg rm

end Carry

/-! ## The unseen changes -/

/-- The state with other flags. -/
def State.withFlags (r : Word) (s : State) : State := { s with rflags := r }

/-- The state with an x87 exception pending. -/
def State.withPending (s : State) : State := { s with fpuPending := true }

/-- The state with another opmask file. -/
def State.withOpmasks (k : Vector (BitVec 64) 8) (s : State) : State := { s with k := k }

/-- The operand that an instruction names depends on `pc`, the general registers and the mode only. -/
theorem access_of_fields {s s' : State} (hpc : s'.pc = s.pc) (hx : s'.gpr = s.gpr) (hmode : s'.mode = s.mode)
    (f : Form) (pre : List Prefix) (xb bb : Bool) (len : Nat) (m : Mem) :
    s'.access f pre xb bb len m = s.access f pre xb bb len m := by
  cases m <;> simp only [State.access, State.effectiveAddress, State.addressSum, State.sibIndex, State.base16, State.x,
    hpc, hx, hmode]

/-- The flags are looked at in EFLAGS.AC only (10_state.md R29, R31). -/
theorem unseen_withFlags {s : State} {r : Word} (h : r.getLsbD 18 = s.rflags.getLsbD 18) (f : Form) :
    Unseen (State.withFlags r) f s where
  gate _ := rfl
  mm _ := rfl
  v _ := rfl
  access := access_of_fields rfl rfl rfl f
  readOperand lanes a := by
    have hcheck : (s.withFlags r).alignmentCheckStop f = s.alignmentCheckStop f := by
      have hac : (s.withFlags r).flagAC = s.flagAC := h
      funext addr
      rw [State.alignmentCheckStop, State.alignmentCheckStop, State.alignmentChecking, hac]
      rfl
    have hstop : (s.withFlags r).operandStop f lanes a = s.operandStop f lanes a := by
      rw [State.operandStop, hcheck]
      rfl
    rw [State.readOperand, hstop]
    rfl
  writeMm _ _ _ := rfl
  writeV _ _ _ := rfl

/-- A pending x87 exception is looked at by F-MMX only (60_exceptions.md R154). -/
theorem unseen_withPending {s : State} {f : Form} (hf : f ≠ .mmx) : Unseen State.withPending f s where
  gate len := by
    have h : (f == Form.mmx) = false := beq_eq_false_iff_ne.2 hf
    rw [State.gate, State.gate, h]
    rfl
  mm _ := rfl
  v _ := rfl
  access := access_of_fields rfl rfl rfl f
  readOperand _ _ := rfl
  writeMm _ _ _ := rfl
  writeV _ _ _ := rfl

/-- The opmask registers are looked at through the writemask only (10_state.md R25). -/
theorem unseen_withOpmasks (k : Vector (BitVec 64) 8) (f : Form) (s : State) :
    Unseen (State.withOpmasks k) f s where
  gate _ := rfl
  mm _ := rfl
  v _ := rfl
  access := access_of_fields rfl rfl rfl f
  readOperand _ _ := rfl
  writeMm _ _ _ := rfl
  writeV _ _ _ := rfl

/-- An EVEX form that completes does the same with another opmask file that agrees on the lanes' bits of the one
selected. -/
theorem evexOperation_withOpmasks {f : Form} {pre : List Prefix} {e : Evex} {reg : BitVec 3} {rm : RM} {s t : State}
    {k : Vector (BitVec 64) 8}
    (hk : e.aaa ≠ 0 → ∀ j < Form.kl f, (k[e.aaa.toNat]'e.aaa.isLt).getLsbD j = (s.opmask e.aaa).getLsbD j)
    (h : evexOperation f pre e reg rm s = .next t) :
    evexOperation f pre e reg rm (s.withOpmasks k) = .next (t.withOpmasks k) := by
  rw [evexOperation_of_unseen (unseen_withOpmasks k f s), h, mapNext_next]
  intro j hj
  by_cases ha : e.aaa = 0
  · simp [State.writemask, ha]
  · exact congrArg (e.aaa == 0 || ·) (hk ha j hj)

/-! ## Overwriting the destination of a VEX form -/

theorem mapNext_id (o : Outcome) : mapNext id o = o := by
  cases o <;> rfl

theorem writeV_writeV (s : State) (n : BitVec 5) (v w : VReg) : (s.writeV n v).writeV n w = s.writeV n w := by
  simp [State.writeV]

/-- A VEX form does not read its destination, unless it is a source too (R130). -/
theorem vexOperation_writeV {f : Form} {pre : List Prefix} {v : Vex} {reg : BitVec 3} {rm : RM} (s : State)
    (old : VReg) (hs1 : Vex.source1 v ≠ num5 false v.r reg)
    (hs2 : ∀ r, rm = .reg r → num5 false v.b r ≠ num5 false v.r reg) :
    vexOperation f pre v reg rm (s.writeV (num5 false v.r reg) old) = vexOperation f pre v reg rm s := by
  rw [← mapNext_id (vexOperation f pre v reg rm s)]
  refine run_eq_mapNext rfl ?_ fun src => ?_
  · cases rm with
    | reg r => rw [State.source, State.source, writeV_v_ne _ _ (hs2 r rfl)]
    | mem m =>
      rw [State.source, State.source, access_of_fields (s := s) rfl rfl rfl]
      rfl
  · rw [writeV_v_ne _ _ hs1, writeV_writeV, id]

/-! ## EVEX without a writemask -/

theorem writemask_zero (s : State) : s.writemask 0 = allLanes := rfl

/-- With every lane selected, masking does nothing. -/
theorem mulhrsMasked_allLanes (kl : Nat) (z : Bool) (old a b : VReg) :
    mulhrsMasked kl allLanes z old a b = mulhrsLanes kl a b := by
  simp [mulhrsMasked, mulhrsLanes, allLanes]

/-- Operand reads that give a value give the same one, when the forms' operands are equally long. -/
theorem readOperand_value {s : State} {f f' : Form} {lanes : Nat → Bool} {a : Access} {x y : VReg}
    (hbytes : Form.bytes f = Form.bytes f') (hx : s.readOperand f lanes a = .ok x)
    (hy : s.readOperand f' lanes a = .ok y) : x = y := by
  unfold State.readOperand at hx hy
  split at hx <;> split at hy <;> cases hx <;> cases hy
  rw [hbytes]

/-- Without a writemask an EVEX form and a VEX form of one width write the same value (R146). -/
theorem vec_eq_of_evex_without_mask {f f' : Form} {pre pre' : List Prefix} {v : Vex} {e : Evex} {reg : BitVec 3}
    {rm rm' : RM} {s t u : State} (hvl : Form.vl f = Form.vl f') (haaa : e.aaa = 0) (hrr : e.rr = false)
    (hvv : e.vv = false) (hr : e.r = v.r) (hvvvv : e.vvvv = v.vvvv)
    (hrm : (∃ r r', rm = .reg r ∧ rm' = .reg r' ∧ num5 e.x e.b r' = num5 false v.b r) ∨
      ∃ m m', rm = .mem m ∧ rm' = .mem m' ∧
        s.access f pre v.x v.b (encodedLen pre 4 rm) m = s.access f' pre' e.x e.b (encodedLen pre' 5 rm') m')
    (ht : vexOperation f pre v reg rm s = .next t) (hu : evexOperation f' pre' e reg rm' s = .next u) :
    t.vec = u.vec := by
  obtain ⟨-, x, hx, rfl⟩ := (run_eq_next _ _ _ _ _ _).1 ht
  obtain ⟨-, y, hy, rfl⟩ := (run_eq_next _ _ _ _ _ _).1 hu
  have hs1 : Evex.source1 e = Vex.source1 v := by
    rw [Evex.source1, Vex.source1, hvv, hvvvv]
    exact (BitVec.setWidth_eq_append (by decide)).symm
  have hxy : x = y := by
    rcases hrm with ⟨r, r', rfl, rfl, hreg⟩ | ⟨m, m', rfl, rfl, haccess⟩
    · cases hx
      cases hy
      exact congrArg s.v hreg.symm
    · rw [State.source, haaa, writemask_zero, ← haccess] at hy
      exact readOperand_value (by rw [Form.bytes, Form.bytes, hvl]) hx hy
  rw [haaa, writemask_zero, mulhrsMasked_allLanes, hs1, hrr, hr, hxy, Form.kl, Form.kl, hvl]
  rfl

end Sys2Proof.Machine

open Sys2Proof Sys2Proof.Machine

/-- Settles O17: other flags that agree on EFLAGS.AC are a change that no form sees. -/
theorem flagsAreNeitherReadNorWritten : Obligations.FlagsAreNeitherReadNorWritten := by
  intro i s r h
  have hexec : exec i { s with rflags := r } = mapNext (State.withFlags r) (exec i s) :=
    exec_of_unseen (g := State.withFlags r) i (unseen_withFlags h _) rfl
  rw [hexec]
  cases exec i s <;> rfl

/-- Settles O31: the checks do not look at memory, and the value is made of the selected bytes. -/
theorem maskedOffBytesAreNeverUsed : Obligations.MaskedOffBytesAreNeverUsed := by
  intro s mem f lanes a h
  have hvalue := readSelected_congr (sel := fun i => lanes (i / 2)) (fun _ _ => rfl) h
  have hstop : State.operandStop { s with mem := mem } f lanes a = s.operandStop f lanes a := rfl
  rw [State.readOperand, State.readOperand, hstop]
  cases s.operandStop f lanes a with
  | some e => rfl
  | none => exact congrArg Except.ok hvalue

/-- Settles O32: another opmask file is seen through the writemask only, in the lanes below `KL`. -/
theorem onlyTheMaskBitsOfTheLanesMatter : Obligations.OnlyTheMaskBitsOfTheLanesMatter :=
  fun _ _ _ _ _ _ _ =>
    ⟨evexOperation_withOpmasks (f := .evex128), evexOperation_withOpmasks (f := .evex256),
      evexOperation_withOpmasks (f := .evex512)⟩

/-- Settles O33: neither source reads the destination, and the write overwrites it. -/
theorem vexDestinationIsNotRead : Obligations.VexDestinationIsNotRead :=
  fun _ _ _ _ s old hs1 hs2 => ⟨vexOperation_writeV s old hs1 hs2, vexOperation_writeV s old hs1 hs2⟩

/-- Settles O34: with every lane selected the masked operation is the unmasked one, on the same operands. -/
theorem evexWithoutMaskEqualsVex : Obligations.EvexWithoutMaskEqualsVex :=
  fun _ _ _ _ _ _ _ _ _ _ haaa hrr hvv hr hvvvv =>
    ⟨vec_eq_of_evex_without_mask rfl haaa hrr hvv hr hvvvv, vec_eq_of_evex_without_mask rfl haaa hrr hvv hr hvvvv⟩

end

section
/-! PROOFS. The gate's exceptions in their order (60_exceptions.md R159 steps 2 to 4), and the modes. -/

namespace Sys2Proof.Machine

/-! ## Ordered checks -/

theorem some_mem_of_firstStop_eq_some {l : List (Option Stop)} {e : Stop} (h : firstStop l = some e) : some e ∈ l := by
  induction l with
  | nil => cases h
  | cons x l ih =>
    cases x with
    | none => exact List.mem_cons_of_mem _ (ih h)
    | some e' =>
      cases h
      exact List.mem_cons_self

theorem stopIf_eq_some {c : Bool} {e e' : Stop} : stopIf c e = some e' ↔ c = true ∧ e = e' := by
  cases c <;> simp

/-! ## The gate -/

/-- The four checks of a form that raise #UD. -/
structure UdChecks (s : State) (f : Form) : Prop where
  mode : (Form.isVexOrEvex f && Mode.isRealOrV86 s.mode) = false
  reported : Form.reported f s.config.features = true
  width : Form.vl f ≤ s.config.maxvl.bits
  osEnabledUd : s.osEnabledUd f = true

theorem gate_of_modeRefused {s : State} (h : s.modeRefused = true) (f : Form) (len : Nat) :
    s.gate f len = some (.refused .modeOutsideModel) := by
  rw [State.gate, h]
  rfl

/-- A #UD check that fails is the first to stop, past the two refusals. -/
theorem gate_of_not_udChecks {s : State} {f : Form} {len : Nat} (hm : s.modeRefused = false)
    (hpc : s.pcFits len = true) (h : ¬UdChecks s f) : s.gate f len = some (.fault .invalidOpcode) := by
  simp only [State.gate, hm, hpc, Bool.not_true, stopIf_false, firstStop_none_cons]
  by_cases h1 : (Form.isVexOrEvex f && Mode.isRealOrV86 s.mode) = true
  · simp [h1]
  by_cases h2 : Form.reported f s.config.features = true
  · by_cases h3 : Form.vl f ≤ s.config.maxvl.bits
    · by_cases h4 : s.osEnabledUd f = true
      · exact absurd ⟨Bool.not_eq_true _ |>.mp h1, h2, h3, h4⟩ h
      · simp [h1, h2, Nat.not_lt.2 h3, h4]
    · simp [h1, h2, Nat.not_le.1 h3]
  · simp [h1, h2]

/-- Past the #UD checks only #NM and #MF are left. -/
theorem gate_of_udChecks {s : State} {f : Form} {len : Nat} (hm : s.modeRefused = false)
    (hpc : s.pcFits len = true) (h : UdChecks s f) :
    s.gate f len = firstStop [stopIf s.cr0TS (.fault .deviceNotAvailable),
      stopIf (f == .mmx && s.fpuPending) (.fault .x87FloatingPoint)] := by
  obtain ⟨h1, h2, h3, h4⟩ := h
  simp [State.gate, hm, hpc, h1, h2, h4, Nat.not_lt.2 h3]

/-- A gate that passes passed the checks before #NM. -/
theorem checks_of_gate_eq_none {s : State} {f : Form} {len : Nat} (h : s.gate f len = none) :
    s.modeRefused = false ∧ s.pcFits len = true ∧ UdChecks s f := by
  obtain ⟨hm, hpc, h1, h2, h3, h4, -, -⟩ := (gate_eq_none s f len).1 h
  exact ⟨hm, hpc, h1, h2, h3, h4⟩

/-- In 64-bit and 32-bit mode a failed #UD check is what an instruction below the top of the address space raises. -/
theorem exec_invalidOpcode {i : Instr} {s : State} (hm : s.mode = .bits64 ∨ s.mode = .prot32)
    (hpc : s.pc.toNat + i.len < if s.mode = .bits64 then 2 ^ 64 else 2 ^ 32) (h : ¬UdChecks s i.form) :
    exec i s = .fault .invalidOpcode :=
  exec_of_gate (gate_of_not_udChecks ((modeRefused_eq_false s).2 (hm.imp_right .inl)) ((pcFits_iff s _).2 hpc) h)

theorem le_maxvl_256_iff (w : MaxVl) : 256 ≤ w.bits ↔ w ≠ .w128 := by
  cases w <;> decide

theorem le_maxvl_512_iff (w : MaxVl) : 512 ≤ w.bits ↔ w = .w512 := by
  cases w <;> decide

/-! ## #NM and #MF -/

/-- The state with CR0.TS = 1. -/
def State.withTaskSwitched (s : State) : State := { s with cr0 := s.cr0 ||| 8 }

theorem withTaskSwitched_osEnabledUd (s : State) (f : Form) : s.withTaskSwitched.osEnabledUd f = s.osEnabledUd f := by
  have hem : s.withTaskSwitched.cr0EM = s.cr0EM := by simp [State.cr0EM, State.withTaskSwitched]
  cases f <;> simp only [State.osEnabledUd, hem] <;> rfl

theorem withTaskSwitched_cr0TS (s : State) : s.withTaskSwitched.cr0TS = true := by
  simp [State.cr0TS, State.withTaskSwitched]

/-- With CR0.TS set an instruction that passes the checks before raises #NM. -/
theorem exec_withTaskSwitched {i : Instr} {s : State} (hm : s.modeRefused = false) (hpc : s.pcFits i.len = true)
    (hud : UdChecks s i.form) : exec i s.withTaskSwitched = .fault .deviceNotAvailable := by
  have hud' : UdChecks s.withTaskSwitched i.form := by
    obtain ⟨hmode, hrep, hvl, hos⟩ := hud
    exact ⟨hmode, hrep, hvl, (withTaskSwitched_osEnabledUd s _).trans hos⟩
  have hgate : s.withTaskSwitched.gate i.form i.len = some (.fault .deviceNotAvailable) := by
    rw [gate_of_udChecks (s := s.withTaskSwitched) hm hpc hud', withTaskSwitched_cr0TS]
    rfl
  exact exec_of_gate hgate

/-- Ready but for CR0.TS, an instruction raises #NM. -/
theorem exec_taskSwitched_of_ready (i : Instr) (s : State) (h : Ready i.form i.len s) :
    exec i s.withTaskSwitched = .fault .deviceNotAvailable := by
  obtain ⟨hm, hpc, hud⟩ := checks_of_gate_eq_none (gate_of_ready h)
  exact exec_withTaskSwitched hm hpc hud

/-- F-MMX sees a pending x87 exception after CR0.TS (60_exceptions.md R159 step 4). -/
theorem exec_pending_of_ready {pre : List Prefix} {reg : BitVec 3} {rm : RM} {s : State}
    (h : Ready .mmx (Instr.pmulhrswMm pre reg rm).len s) :
    exec (.pmulhrswMm pre reg rm) s.withPending = .fault .x87FloatingPoint ∧
      exec (.pmulhrswMm pre reg rm) s.withPending.withTaskSwitched = .fault .deviceNotAvailable := by
  obtain ⟨hm, hpc, hud⟩ := checks_of_gate_eq_none (gate_of_ready h)
  have hud' : UdChecks s.withPending .mmx := ⟨hud.mode, hud.reported, hud.width, hud.osEnabledUd⟩
  have hts : s.withPending.cr0TS = false := h.ts
  have hgate : s.withPending.gate .mmx (Instr.pmulhrswMm pre reg rm).len = some (.fault .x87FloatingPoint) := by
    rw [gate_of_udChecks (s := s.withPending) hm hpc hud', hts]
    rfl
  exact ⟨exec_of_gate hgate, exec_withTaskSwitched hm hpc hud'⟩

/-! ## Where #MF cannot come from -/

theorem gate_ne_x87FloatingPoint {s : State} {f : Form} {len : Nat} (hf : f ≠ .mmx) :
    s.gate f len ≠ some (.fault .x87FloatingPoint) := by
  intro h
  have hmem := some_mem_of_firstStop_eq_some h
  simp [eq_comm (a := some _), stopIf_eq_some, hf] at hmem

/-- No check of a memory operand raises #MF. -/
theorem operandStop_ne_x87FloatingPoint (s : State) (f : Form) (lanes : Nat → Bool) (a : Access) :
    s.operandStop f lanes a ≠ some (.fault .x87FloatingPoint) := by
  intro h
  have hmem := some_mem_of_firstStop_eq_some h
  simp only [List.mem_cons, List.not_mem_nil, or_false, eq_comm (a := some _)] at hmem
  rcases hmem with h | h | h | h | h | h | h
  · cases (stopIf_eq_some.1 h).2
  · cases (stopIf_eq_some.1 h).2
  · cases (stopIf_eq_some.1 h).2
  · cases (stopIf_eq_some.1 h).2
  · obtain ⟨i, -, h⟩ := List.exists_of_findSome?_eq_some h
    cases ha : s.answerAt a i <;> simp [ha, Answer.segmentStop] at h
  · have := (stopIf_eq_some.1 h).2
    split at this <;> cases this
  · obtain ⟨i, -, h⟩ := List.exists_of_findSome?_eq_some h
    cases ha : s.answerAt a i <;> simp [ha, State.pageStop] at h

theorem source_ne_x87FloatingPoint {s : State} {f : Form} {lanes : Nat → Bool} {pre : List Prefix} {xb bb : Bool}
    {len : Nat} {reg : BitVec 3 → VReg} {rm : RM} :
    s.source f lanes pre xb bb len reg rm ≠ .error (.fault .x87FloatingPoint) := by
  intro h
  cases rm with
  | reg r => cases h
  | mem m =>
    rw [State.source, State.readOperand] at h
    cases hstop : s.operandStop f lanes (s.access f pre xb bb len m) with
    | none => simp [hstop] at h
    | some e =>
      simp only [hstop, Except.error.injEq] at h
      exact operandStop_ne_x87FloatingPoint _ _ _ _ (h ▸ hstop)

/-- A fault of an instruction is its gate's or its last source's. -/
theorem run_eq_fault {s : State} {f : Form} {len : Nat} {source : Except Stop VReg} {write : VReg → State} {x : Fault}
    (h : s.run f len source write = .fault x) :
    s.gate f len = some (.fault x) ∨ source = .error (.fault x) := by
  have houtcome : ∀ e : Stop, e.outcome = .fault x → e = .fault x := by
    intro e he
    cases e <;> cases he
    rfl
  cases hgate : s.gate f len with
  | some e => exact .inl (congrArg some (houtcome e ((run_of_gate hgate _ _).symm.trans h)))
  | none =>
    cases source with
    | error e => exact .inr (congrArg Except.error (houtcome e ((run_of_source hgate _).symm.trans h)))
    | ok v => cases (run_of_value hgate _).symm.trans h

theorem run_ne_x87FloatingPoint {s : State} {f : Form} {len : Nat} {lanes : Nat → Bool} {pre : List Prefix}
    {xb bb : Bool} {reg : BitVec 3 → VReg} {rm : RM} {write : VReg → State} (hf : f ≠ .mmx) :
    s.run f len (s.source f lanes pre xb bb len reg rm) write ≠ .fault .x87FloatingPoint :=
  fun h => (run_eq_fault h).elim (gate_ne_x87FloatingPoint hf) source_ne_x87FloatingPoint

/-- Only F-MMX raises #MF. -/
theorem exec_ne_x87FloatingPoint {i : Instr} (h : i.form ≠ .mmx) (s : State) :
    exec i s ≠ .fault .x87FloatingPoint := by
  cases i with
  | pmulhrswMm => exact absurd rfl h
  | _ => exact run_ne_x87FloatingPoint h

end Sys2Proof.Machine

open Sys2Proof Sys2Proof.Machine

/-- Settles O22: a missing feature flag or a narrower `MAXVL` fails a #UD check of the gate. -/
theorem missingFeatureIsInvalidOpcode : Obligations.MissingFeatureIsInvalidOpcode := by
  intro i s hm hpc h
  refine exec_invalidOpcode hm hpc fun hud => ?_
  have hrep := hud.reported
  have hvl := hud.width
  cases i <;> simp_all [Instr.form, Form.reported, Form.vl, le_maxvl_256_iff, le_maxvl_512_iff]

/-- Settles O23: a false conjunct of `OSENABLED` fails the last #UD check of the gate. -/
theorem disabledStateIsInvalidOpcode : Obligations.DisabledStateIsInvalidOpcode := by
  intro i s hm hpc h
  refine exec_invalidOpcode hm hpc fun hud => ?_
  have hos := hud.osEnabledUd
  cases i <;> simp_all [Instr.form, State.osEnabledUd, State.cr0EM, State.osfxsr, State.osxsave, xcr0Avx_iff,
    xcr0Avx512_iff]

/-- Settles O24: #NM and #MF are the two checks of the gate after #UD; a pending x87 exception is a change that only
F-MMX sees, and no memory operand raises #MF. -/
theorem taskSwitchedAndPendingX87Fault : Obligations.TaskSwitchedAndPendingX87Fault := by
  intro s
  refine ⟨fun pre reg rm h => ?_,
    fun pre reg rm => exec_taskSwitched_of_ready (.pmulhrswXmm pre reg rm) s,
    fun pre v reg rm => exec_taskSwitched_of_ready (.vpmulhrswVex128 pre v reg rm) s,
    fun pre v reg rm => exec_taskSwitched_of_ready (.vpmulhrswVex256 pre v reg rm) s,
    fun pre e reg rm => exec_taskSwitched_of_ready (.vpmulhrswEvex128 pre e reg rm) s,
    fun pre e reg rm => exec_taskSwitched_of_ready (.vpmulhrswEvex256 pre e reg rm) s,
    fun pre e reg rm => exec_taskSwitched_of_ready (.vpmulhrswEvex512 pre e reg rm) s,
    fun i t hi h => ?_, fun i hi => exec_ne_x87FloatingPoint (form_ne_mmx hi) s⟩
  · obtain ⟨hmf, hnm⟩ := exec_pending_of_ready h
    exact ⟨exec_taskSwitched_of_ready _ s h, hmf, hnm⟩
  · have hpending : exec i s.withPending = mapNext State.withPending (exec i s) :=
      exec_of_unseen i (unseen_withPending (form_ne_mmx hi)) rfl
    exact hpending.trans (by rw [h]; rfl)

/-- Settles O25: the mode checks are the first of a step, of the gate, and of the #UD checks. -/
theorem otherModesRefuseOrRaiseInvalidOpcode : Obligations.OtherModesRefuseOrRaiseInvalidOpcode := by
  refine ⟨fun i s hm ho hpc hmm hxmm => ?_, fun s hm ho => ?_⟩
  · have hvex : Form.isVexOrEvex i.form = true := by cases i <;> simp_all [Instr.form, Form.isVexOrEvex]
    have hreal : Mode.isRealOrV86 s.mode = true := by rcases hm with h | h <;> rw [h] <;> rfl
    have hne : s.mode ≠ .bits64 := by rcases hm with h | h <;> rw [h] <;> decide
    have hgate := gate_of_not_udChecks (f := i.form) ((modeRefused_eq_false s).2 (.inr (.inr ho)))
      ((pcFits_iff s i.len).2 (by rwa [if_neg hne])) fun hud => by simpa [hvex, hreal] using hud.mode
    exact exec_of_gate hgate
  · have hrefused : s.modeRefused = true := by
      rcases hm with h | h | h <;> simp [State.modeRefused, h, ho, modeInScope]
    refine ⟨?_, fun i => exec_of_gate (gate_of_modeRefused hrefused _ _)⟩
    rw [step, if_pos hrefused]

end

section
/-! PROOFS. What stops a memory operand, check by check (60_exceptions.md R159 steps 5 and 6), and what a writemask
keeps from being checked (20_memory.md R59). -/

namespace Sys2Proof.Machine

/-! ## An instruction whose memory operand stops -/

theorem readOperand_of_stop {s : State} {f : Form} {lanes : Nat → Bool} {a : Access} {e : Stop}
    (h : s.operandStop f lanes a = some e) : s.readOperand f lanes a = .error e := by
  simp [State.readOperand, h]

/-- A ready form with a memory operand answers the stop of its read. -/
theorem run_of_operand_error {s : State} {f : Form} {lanes : Nat → Bool} {pre : List Prefix} {xb bb : Bool}
    {len : Nat} {m : Mem} {e : Stop} (hready : Ready f len s)
    (h : s.readOperand f lanes (s.access f pre xb bb len m) = .error e) (reg : BitVec 3 → VReg)
    (write : VReg → State) :
    s.run f len (s.source f lanes pre xb bb len reg (.mem m)) write = e.outcome := by
  rw [State.source, h]
  exact run_of_source (gate_of_ready hready) _

/-! ## The checks of the operand's address -/

section Checks

variable {s : State} {f : Form} {lanes : Nat → Bool} {a : Access}

theorem operandStop_of_unalignedBase (h : (s.segBase a.seg).toNat % Form.baseAlignment f s.config ≠ 0) :
    s.operandStop f lanes a = some (.refused .unalignedSegmentBase) := by
  simp [State.operandStop, h]

theorem operandStop_of_unaligned (hbase : (s.segBase a.seg).toNat % Form.baseAlignment f s.config = 0)
    (h : s.operandAddress a % Form.alignment f s.config ≠ 0) :
    s.operandStop f lanes a = some (.fault .generalProtection) := by
  simp [State.operandStop, hbase, h]

variable (hbase : (s.segBase a.seg).toNat % Form.baseAlignment f s.config = 0)
  (haligned : s.operandAddress a % Form.alignment f s.config = 0)
include hbase haligned

/-- With the address aligned, and no byte to refuse, the segment faults come first, then #AC, then #PF. -/
theorem operandStop_of_aligned
    (h : ∀ k ∈ s.checkedBytes f lanes, s.answerAt a k ≠ .absent ∧ s.answerAt a k ≠ .device) :
    s.operandStop f lanes a = firstStop [
      (s.checkedBytes f lanes).findSome? fun i => Answer.segmentStop (s.answerAt a i),
      s.alignmentCheckStop f (s.operandAddress a),
      (s.checkedBytes f lanes).findSome? fun i => s.pageStop .read (s.operandAddress a + i) (s.answerAt a i)] := by
  have habsent : ((s.checkedBytes f lanes).any fun i => s.answerAt a i == .absent) = false := by
    simpa using fun k hk => (h k hk).1
  have hdevice : ((s.checkedBytes f lanes).any fun i => s.answerAt a i == .device) = false := by
    simpa using fun k hk => (h k hk).2
  simp [State.operandStop, hbase, haligned, habsent, hdevice]

/-- Where every checked byte is readable or page-faulting, #AC comes before #PF. -/
theorem operandStop_of_readable_or_pf
    (h : ∀ k ∈ s.checkedBytes f lanes, s.answerAt a k = .readable ∨ ∃ p, s.answerAt a k = .pf p) :
    s.operandStop f lanes a = firstStop [
      s.alignmentCheckStop f (s.operandAddress a),
      (s.checkedBytes f lanes).findSome? fun i => s.pageStop .read (s.operandAddress a + i) (s.answerAt a i)] := by
  have hsegment : ((s.checkedBytes f lanes).findSome? fun i => Answer.segmentStop (s.answerAt a i)) = none := by
    rw [List.findSome?_eq_none_iff]
    intro k hk
    rcases h k hk with hr | ⟨p, hp⟩
    · rw [hr, Answer.segmentStop]
    · rw [hp, Answer.segmentStop]
  rw [operandStop_of_aligned hbase haligned, hsegment, firstStop_none_cons]
  intro k hk
  rcases h k hk with hr | ⟨p, hp⟩
  · simp [hr]
  · simp [hp]

end Checks

/-! ## The lowest byte that faults -/

theorem checkedBytes_pairwise (s : State) (f : Form) (lanes : Nat → Bool) :
    (s.checkedBytes f lanes).Pairwise (· < ·) :=
  List.pairwise_lt_range.filter _

/-- In a rising list the first that answers is the least that does. -/
theorem findSome?_of_least {α : Type} {l : List Nat} {g : Nat → Option α} {i : Nat} {x : α}
    (hl : l.Pairwise (· < ·)) (hi : i ∈ l) (hx : g i = some x) (hleast : ∀ k ∈ l, k < i → g k = none) :
    l.findSome? g = some x := by
  obtain ⟨l₁, l₂, rfl⟩ := List.append_of_mem hi
  refine List.findSome?_eq_some_iff.2 ⟨l₁, i, l₂, rfl, hx, fun k hk => hleast k (by simp [hk]) ?_⟩
  exact (List.pairwise_append.1 hl).2.2 k hk i List.mem_cons_self

/-- A list in which only `x` is answered, and somewhere, answers `x`. -/
theorem findSome?_of_only {α β : Type} {l : List β} {g : β → Option α} {i : β} {x : α} (hi : i ∈ l)
    (hx : g i = some x) (honly : ∀ k ∈ l, g k = none ∨ g k = some x) : l.findSome? g = some x := by
  cases hf : l.findSome? g with
  | none => exact absurd (List.findSome?_eq_none_iff.1 hf i hi) (by simp [hx])
  | some y =>
    obtain ⟨k, hk, hy⟩ := List.exists_of_findSome?_eq_some hf
    rcases honly k hk with h | h
    · exact absurd (hy.symm.trans h) (by simp)
    · exact hy.symm.trans h

/-- The bits of a read's error code (60_exceptions.md R157). -/
theorem pageFaultCode_read_bits (s : State) (i : PageInfo) :
    (s.pageFaultCode .read i).getLsbD 0 = i.p ∧ (s.pageFaultCode .read i).getLsbD 1 = false ∧
      (s.pageFaultCode .read i).getLsbD 2 = decide (s.cpl = 3) ∧ (s.pageFaultCode .read i).getLsbD 3 = i.rsvd ∧
      (s.pageFaultCode .read i).getLsbD 4 = false ∧ (s.pageFaultCode .read i).getLsbD 5 = i.pk ∧
      ∀ n, 6 ≤ n → (s.pageFaultCode .read i).getLsbD n = false := by
  have hid : (i.id && AccessKind.read == .fetch) = false := by simp
  have hcpl : (s.cpl == 3) = decide (s.cpl = 3) := rfl
  unfold State.pageFaultCode
  rw [hid, hcpl]
  generalize decide (s.cpl = 3) = u
  clear hid hcpl
  obtain ⟨p, rsvd, pk, id⟩ := i
  dsimp only
  refine ⟨?_, ?_, ?_, ?_, ?_, ?_, fun n hn => ?_⟩
  case refine_7 => rw [BitVec.getLsbD_setWidth, BitVec.getLsbD_of_ge _ _ hn, Bool.and_false]
  all_goals revert p rsvd pk u; decide

/-! ## Non-canonical addresses -/

/-- The non-canonical addresses are those between the two halves (20_memory.md R57). -/
theorem canonical_eq_false_iff (bits a : Nat) :
    canonical bits a = false ↔ 2 ^ (bits - 1) ≤ a ∧ a < 2 ^ 64 - 2 ^ (bits - 1) := by
  simp only [canonical, Bool.or_eq_false_iff, decide_eq_false_iff_not, Nat.not_lt, Nat.not_le]

/-- The answer for a non-canonical byte through a segment. -/
def segmentAnswer (g : Seg) : Answer := if g = .ss then .ss else .gp

theorem segmentAnswer_ne (g : Seg) : segmentAnswer g ≠ .absent ∧ segmentAnswer g ≠ .device := by
  cases g <;> decide

theorem segmentStop_segmentAnswer (g : Seg) :
    (segmentAnswer g).segmentStop = some (.fault (if g = .ss then .stackSegment else .generalProtection)) := by
  cases g <;> rfl

/-- In 64-bit mode a byte below 2^64 answers by its address being canonical or not, and then by its region. -/
theorem answerAt_bits64 {s : State} (hm : s.mode = .bits64) (a : Access) (i : Nat)
    (hlt : s.operandAddress a + i < 2 ^ 64) :
    s.answerAt a i =
      if canonical s.config.linearBits (s.operandAddress a + i) = false then segmentAnswer a.seg
      else lookupRegion s.regions .read (s.operandAddress a + i) := by
  have htop : ¬ s.addressTop ≤ s.operandAddress a + i := by
    rw [State.addressTop, hm, Mode.addressBits]
    omega
  simp [State.answerAt, State.translate, segmentAnswer, hm, htop]

/-! ## A writemask of zeros -/

/-- Under a writemask with no lane selected no byte of the operand is checked. -/
theorem sourceReady_of_no_lane {s : State} {f : Form} {lanes : Nat → Bool} (hf : f ≠ .sse)
    (hsup : s.config.faultSuppression = true) (hnl : s.config.alignCheckNonLegacy = false)
    (hac : s.alignmentChecking = false) (hlanes : ∀ j < Form.kl f, lanes j = false) (pre : List Prefix) (xb bb : Bool)
    (len : Nat) (rm : RM) : SourceReady f lanes pre xb bb len rm s := by
  intro m _
  have hsse : (f == Form.sse) = false := beq_eq_false_iff_ne.2 hf
  refine ⟨?_, ?_, fun h => by simp [hac] at h, fun i hi h => ?_⟩
  · simp [Form.baseAlignment, hsse, hnl, Nat.mod_one]
  · simp [Form.alignment, hsse, hnl, Nat.mod_one]
  · have hbytes : Form.bytes f ≤ 2 * Form.kl f := by cases f <;> decide
    have := hlanes (i / 2) (by omega)
    simp [h hsup] at this

theorem lane_zero (j : Nat) : lane 0 j = 0 := by simp [lane]

theorem lane_setWidth_setWidth (x : VReg) (w j : Nat) (hw : w = 16 * (w / 16)) (hj : j < 32) :
    lane ((x.setWidth w).setWidth 512) j = if j < w / 16 then lane x j else 0 := by
  ext i hi
  by_cases hk : j < w / 16
  · simp [lane, hk, show 16 * j + i < 512 by omega, show 16 * j + i < w by omega]
  · simp [lane, hk, show ¬ 16 * j + i < w by omega]

/-- Under a writemask with no lane selected an EVEX form completes, and its lanes are kept or zeroed. -/
theorem evexOperation_no_lane {f : Form} (hf : Form.isEvex f = true) {pre : List Prefix} {e : Evex} {reg : BitVec 3}
    {m : Mem} {s : State} (hready : Ready f (encodedLen pre 5 (.mem m)) s)
    (hsup : s.config.faultSuppression = true) (hnl : s.config.alignCheckNonLegacy = false)
    (hac : s.alignmentChecking = false) (haaa : e.aaa ≠ 0) (hk : (s.opmask e.aaa).setWidth (Form.kl f) = 0) :
    ∃ t, evexOperation f pre e reg (.mem m) s = .next t ∧
      t.v (num5 e.rr e.r reg) =
        if e.z = true then 0 else ((s.v (num5 e.rr e.r reg)).setWidth (Form.vl f)).setWidth 512 := by
  have hbit : ∀ j < Form.kl f, (s.opmask e.aaa).getLsbD j = false := by
    intro j hj
    have h := congrArg (fun x => x.getLsbD j) hk
    simpa [hj] using h
  have hmask : ∀ j < Form.kl f, s.writemask e.aaa j = false := by
    intro j hj
    rw [State.writemask, beq_eq_false_iff_ne.2 haaa, hbit j hj, Bool.or_false]
  have hsse : f ≠ .sse := by rintro rfl; cases hf
  obtain ⟨t, ht, -, -, hlanes⟩ := evexOperation_completes (reg := reg) hready
    (sourceReady_of_no_lane hsse hsup hnl hac hmask _ _ _ _ _)
  refine ⟨t, ht, eq_of_lanes fun j hj => ?_⟩
  have hvl : Form.vl f = 16 * (Form.vl f / 16) := by cases f <;> rfl
  rw [hlanes j hj]
  by_cases hjk : j < Form.kl f
  · have hsel : ¬(e.aaa = 0 ∨ (s.opmask e.aaa).getLsbD j = true) := by simp only [haaa, hbit j hjk]; decide
    rw [if_pos hjk, if_neg hsel]
    split
    · rw [lane_zero]
    · rw [lane_setWidth_setWidth _ _ _ hvl hj]
      exact (if_pos hjk).symm
  · rw [if_neg hjk]
    split
    · rw [lane_zero]
    · rw [lane_setWidth_setWidth _ _ _ hvl hj]
      exact (if_neg hjk).symm

end Sys2Proof.Machine

open Sys2Proof Sys2Proof.Machine

/-- Settles O56: a ready form answers the stop of its last source. -/
theorem memoryFormsAnswerTheStopOfTheirOperand : Obligations.MemoryFormsAnswerTheStopOfTheirOperand := by
  intro pre v e reg m s stop answer hanswer
  have houtcome : answer = stop.outcome := by
    rw [hanswer]
    cases stop <;> rfl
  subst houtcome
  exact ⟨fun hr h => run_of_operand_error hr h _ _, fun hr h => run_of_operand_error hr h _ _,
    fun hr h => run_of_operand_error hr h _ _, fun hr h => run_of_operand_error hr h _ _,
    fun hr h => run_of_operand_error hr h _ _, fun hr h => run_of_operand_error hr h _ _,
    fun hr h => run_of_operand_error hr h _ _⟩

/-- Settles O21: the first two checks of the operand, where F-SSE asks for 16. -/
theorem sseMisalignedOperandFaults : Obligations.SseMisalignedOperandFaults := by
  intro pre reg m s hready
  refine ⟨fun hbase haddr => ?_, fun hbase => ?_⟩
  · exact run_of_operand_error hready (readOperand_of_stop (operandStop_of_unaligned hbase haddr)) _ _
  · exact run_of_operand_error hready (readOperand_of_stop (operandStop_of_unalignedBase hbase)) _ _

/-- Settles O55: the same two checks, which `ALIGN_CHECK_NONLEGACY` gives every other form. -/
theorem alignCheckNonLegacyRaisesGeneralProtection : Obligations.AlignCheckNonLegacyRaisesGeneralProtection := by
  intro s f lanes a hf hnl
  have hbaseAlignment : Form.baseAlignment f s.config = 16 := by simp [Form.baseAlignment, hnl]
  have halignment : Form.alignment f s.config = Form.bytes f := by simp [Form.alignment, hf, hnl]
  refine ⟨fun hbase haddr => ?_, fun hbase => ?_⟩
  · refine readOperand_of_stop (operandStop_of_unaligned (by rwa [hbaseAlignment]) ?_)
    rw [halignment]
    cases f <;> exact haddr
  · exact readOperand_of_stop (operandStop_of_unalignedBase (by rwa [hbaseAlignment]))

/-- Settles O26: past the alignment checks the page faults are searched from the lowest checked byte up. -/
theorem pageFaultIsForTheLowestCheckedByte : Obligations.PageFaultIsForTheLowestCheckedByte := by
  intro s f lanes a i info hac hbase haligned hanswers hi hpf hlowest
  refine ⟨s.pageFaultCode .read info, readOperand_of_stop ?_, pageFaultCode_read_bits s info⟩
  have hcheck : s.alignmentCheckStop f (s.operandAddress a) = none := by
    rw [State.alignmentCheckStop, stopIf_eq_none]
    cases h : s.alignmentChecking <;> simp_all
  rw [operandStop_of_readable_or_pf hbase haligned hanswers, hcheck, firstStop_none_cons,
    findSome?_of_least (checkedBytes_pairwise s f lanes) hi (by rw [hpf]; rfl)
      fun k hk hlt => by rw [hlowest k hk hlt]; rfl]
  rfl

/-- Settles O27: every non-canonical byte answers the same segment fault, and those are raised before #AC and #PF. -/
theorem nonCanonicalOperandFaults : Obligations.NonCanonicalOperandFaults := by
  intro s f lanes a i hm hbase haligned hanswers hi hlow hhigh
  have hcases : ∀ k ∈ s.checkedBytes f lanes, s.answerAt a k = segmentAnswer a.seg ∨ s.answerAt a k = .readable ∨
      ∃ p, s.answerAt a k = .pf p := by
    intro k hk
    obtain ⟨hlt, hregion⟩ := hanswers k hk
    rw [answerAt_bits64 hm a k hlt]
    split
    · exact .inl rfl
    · exact .inr hregion
  have hi' : s.answerAt a i = segmentAnswer a.seg := by
    rw [answerAt_bits64 hm a i (hanswers i hi).1, if_pos ((canonical_eq_false_iff _ _).2 ⟨hlow, hhigh⟩)]
  have hfind := findSome?_of_only (g := fun k => Answer.segmentStop (s.answerAt a k)) hi
    ((congrArg Answer.segmentStop hi').trans (segmentStop_segmentAnswer a.seg)) fun k hk => by
      rcases hcases k hk with h | h | ⟨p, h⟩ <;> simp only [h, segmentStop_segmentAnswer]
      · exact .inr trivial
      · exact .inl rfl
      · exact .inl rfl
  refine readOperand_of_stop ?_
  rw [operandStop_of_aligned hbase haligned, hfind, firstStop_some_cons]
  intro k hk
  rcases hcases k hk with h | h | ⟨p, h⟩
  · exact h ▸ segmentAnswer_ne a.seg
  · simp [h]
  · simp [h]

/-- Settles O28: #AC stands after the segment faults, of which there is none, and before the page faults. -/
theorem alignmentCheckOfUnalignedOperands : Obligations.AlignmentCheckOfUnalignedOperands := by
  intro s f lanes a ham hacFlag hcpl hbase haligned hunaligned hanswers
  have hac : s.alignmentChecking = true := by
    simp [State.alignmentChecking, State.cr0AM, State.flagAC, ham, hacFlag, hcpl]
  refine readOperand_of_stop ?_
  rw [operandStop_of_readable_or_pf hbase haligned hanswers, State.alignmentCheckStop, hac,
    decide_eq_true hunaligned]
  cases f <;> rfl

/-- Settles O29: the table by computation, and no fault of the model has one of the four vectors. -/
theorem exceptionVectors : Obligations.ExceptionVectors := by
  refine ⟨rfl, rfl, rfl, rfl, fun _ _ => ⟨rfl, rfl⟩, rfl, rfl, rfl, rfl, rfl, rfl, rfl, rfl, fun s f _ => ?_⟩
  cases f <;> simp [Fault.vector]

/-- Settles O30: with no lane selected no byte is checked, so the form completes, and no lane is a product. -/
theorem zeroMaskNeverFaultsOnMemory : Obligations.ZeroMaskNeverFaultsOnMemory := by
  intro pre e reg m s hsup hnl hac haaa
  refine ⟨fun hr hk => ?_, fun hr hk => ?_, fun hr hk => ?_⟩
  · exact evexOperation_no_lane (f := .evex128) rfl hr hsup hnl hac haaa hk
  · exact evexOperation_no_lane (f := .evex256) rfl hr hsup hnl hac haaa hk
  · obtain ⟨t, ht, hv⟩ := evexOperation_no_lane (f := .evex512) (reg := reg) rfl hr hsup hnl hac haaa hk
    rw [Form.vl, BitVec.setWidth_eq, BitVec.setWidth_eq] at hv
    exact ⟨t, ht, hv⟩

end

section
/-! PROOFS. Effective addresses, segments and operand addresses (30_encoding.md R80 to R84, 20_memory.md R60). -/

namespace Sys2Proof.Machine

/-! ## Truncation -/

@[simp] theorem truncate_64 (a : Word) : truncate 64 a = a := by
  simp [truncate]

theorem truncate_32_signExtend (v : BitVec 32) : truncate 32 (v.signExtend 64) = v.setWidth 64 := by
  have h : (v.signExtend 64).setWidth 32 = v := by
    ext i hi
    rw [BitVec.getElem_setWidth, BitVec.getLsbD_signExtend]
    simp [hi, show i < 64 by omega]
  rw [truncate, h]

theorem truncate_16_setWidth (v : BitVec 16) : truncate 16 (v.setWidth 64) = v.setWidth 64 := by
  simp [truncate]

/-! ## The addressing width (R80, R84, R99) -/

theorem addressingBits_bits64 (pre : List Prefix) :
    addressingBits .bits64 pre = if hasAddrSize pre then 32 else 64 := rfl

theorem addressingBits_prot32 (pre : List Prefix) :
    addressingBits .prot32 pre = if hasAddrSize pre then 16 else 32 := rfl

theorem addressingBits_of_not_addr16 {m : Mode} {pre : List Prefix} (hm : m ≠ .bits64) (h : addr16 m pre = false) :
    addressingBits m pre = 32 := by
  cases m <;> simp_all [addressingBits]

/-! ## The effective address -/

theorem access_ea (s : State) (f : Form) (pre : List Prefix) (xb bb : Bool) (len : Nat) (m : Mem) :
    (s.access f pre xb bb len m).ea =
      truncate (addressingBits s.mode pre) (s.addressSum xb bb (Form.dispScale f) len m) := rfl

/-- In 64-bit mode without prefix 67 the effective address is the sum itself (R80). -/
theorem access_ea_64 {s : State} {pre : List Prefix} (hm : s.mode = .bits64) (hp : hasAddrSize pre = false) (f : Form)
    (xb bb : Bool) (len : Nat) (m : Mem) :
    (s.access f pre xb bb len m).ea = s.addressSum xb bb (Form.dispScale f) len m := by
  rw [access_ea, hm, addressingBits_bits64, hp]
  exact truncate_64 _

theorem num4_eq_four_iff : ∀ (x : Bool) (index : BitVec 3), num4 x index = 4 ↔ x = false ∧ index = 4 := by
  decide

theorem shiftLeft_eq_mul (x : Word) (n : Nat) : x <<< n = x * BitVec.ofNat 64 (2 ^ n) := by
  have h : BitVec.twoPow 64 n = BitVec.ofNat 64 (2 ^ n) :=
    BitVec.eq_of_toNat_eq (by rw [BitVec.toNat_twoPow, BitVec.toNat_ofNat])
  rw [BitVec.shiftLeft_eq_mul_twoPow, h]

/-- The index term of R81 as a product. -/
theorem sibIndex_eq_mul (s : State) (x : Bool) (scale : BitVec 2) (index : BitVec 3) :
    s.sibIndex x scale index =
      if x = false ∧ index = 4 then 0 else s.x (num4 x index) * BitVec.ofNat 64 (2 ^ scale.toNat) := by
  simp only [State.sibIndex, num4_eq_four_iff, shiftLeft_eq_mul]

/-! ## Segments -/

theorem access_seg (s : State) (f : Form) (pre : List Prefix) (xb bb : Bool) (len : Nat) (m : Mem) :
    (s.access f pre xb bb len m).seg = segmentOf s.mode pre bb m := rfl

/-- Without an override the segment is the default one (R84). -/
theorem segmentOf_of_no_override {pre : List Prefix} (h : ∀ g, .seg g ∉ pre) (mode : Mode) (bb : Bool) (m : Mem) :
    segmentOf mode pre bb m = defaultSegment bb m := by
  have hnil : segOverrides pre = [] := List.eq_nil_iff_forall_not_mem.2 fun g hg => h g ((mem_segOverrides pre g).1 hg)
  rw [segmentOf, hnil]

/-- With an override the segment is one of those named (log 16). -/
theorem segmentOf_mem {pre : List Prefix} {g : Seg} (h : .seg g ∈ pre) (mode : Mode) (bb : Bool) (m : Mem) :
    .seg (segmentOf mode pre bb m) ∈ pre := by
  have hg := (mem_segOverrides pre g).2 h
  rw [← mem_segOverrides, segmentOf]
  cases hs : segOverrides pre with
  | nil => simp [hs] at hg
  | cons g' t =>
    dsimp only
    split
    · exact List.mem_cons_self
    · exact List.getElem_mem _

/-- The base registers of R84 that choose SS. -/
theorem stackSegment_num4 : ∀ (bb : Bool) (b : BitVec 3),
    (if isStackBase (num4 bb b) then Seg.ss else .ds) = if bb = false ∧ (b = 4 ∨ b = 5) then .ss else .ds := by
  decide

/-! ## Segment bases -/

/-- In 64-bit mode the bases of ES, CS, SS and DS are 0 (R84, D16). -/
theorem segBase_flat {s : State} (hm : s.mode = .bits64) {g : Seg} (hg : g ≠ .fs ∧ g ≠ .gs) : s.segBase g = 0 := by
  unfold State.segBase
  rw [hm]
  cases g <;> simp_all

theorem segBase_fs_gs (s : State) {g : Seg} (hg : g = .fs ∨ g = .gs) :
    s.segBase g = (s.seg[Seg.number g]).base := by
  unfold State.segBase
  rcases hg with rfl | rfl <;> cases s.mode <;> rfl

theorem segBase_of_ne_bits64 {s : State} (hm : s.mode ≠ .bits64) (g : Seg) :
    s.segBase g = (s.seg[Seg.number g]).base := by
  unfold State.segBase
  cases h : s.mode <;> simp_all

/-- In 64-bit mode the sum is not truncated. -/
theorem operandAddress_bits64 {s : State} (hm : s.mode = .bits64) (a : Access) :
    s.operandAddress a = (s.segBase a.seg + a.ea).toNat := by
  rw [State.operandAddress, State.linear, hm]
  exact congrArg BitVec.toNat (truncate_64 _)

theorem operandAddress_of_ne_bits64 {s : State} (hm : s.mode ≠ .bits64) (a : Access) :
    s.operandAddress a = ((s.segBase a.seg + a.ea).setWidth 32).toNat := by
  have hbits : Mode.addressBits s.mode = 32 := by cases h : s.mode <;> simp_all [Mode.addressBits]
  rw [State.operandAddress, State.linear, hbits, truncate, BitVec.toNat_setWidth_of_le (by decide)]

end Sys2Proof.Machine

open Sys2Proof Sys2Proof.Machine

/-- Settles O35: the sum in 64-bit mode with the scale of each form. -/
theorem disp8IsScaledInEvexFormsOnly : Obligations.Disp8IsScaledInEvexFormsOnly := by
  intro s pre xb bb len rm v hm hp
  refine ⟨fun f hf => ?_, access_ea_64 hm hp .evex128 .., access_ea_64 hm hp .evex256 ..,
    access_ea_64 hm hp .evex512 ..⟩
  have hscale : Form.dispScale f = 1 := by rcases hf with rfl | rfl | rfl | rfl <;> rfl
  rw [access_ea_64 hm hp, State.addressSum, hscale, Disp.value, BitVec.mul_one]

/-- Settles O36: the sum of `disp32` in and outside 64-bit mode, at each addressing width. -/
theorem ripRelativeAddress : Obligations.RipRelativeAddress := by
  intro s f pre xb bb len v
  refine ⟨fun hm hp => ?_, fun hm hp => ?_, fun hm hp => ?_⟩
  · rw [access_ea_64 hm hp, State.addressSum, if_pos hm]
  · rw [access_ea, State.addressSum, if_pos hm, hm, addressingBits_bits64, hp]
    rfl
  · rw [access_ea, State.addressSum, if_neg hm, addressingBits_of_not_addr16 hm hp, truncate_32_signExtend]

/-- Settles O37: the index term as a product, the stack bases, and the bases that 64-bit mode takes as 0. -/
theorem sibAndSegmentRules : Obligations.SibAndSegmentRules := by
  intro s f xb bb len scale index b v hm
  refine ⟨?_, ?_, ?_, rfl, segBase_flat hm (by simp), segBase_flat hm (by simp), segBase_flat hm (by simp),
    segBase_flat hm (by simp), segBase_fs_gs s (.inl rfl), segBase_fs_gs s (.inr rfl)⟩
  · rw [access_ea_64 hm rfl, State.addressSum, sibIndex_eq_mul]
    exact BitVec.add_zero _
  · rw [access_ea_64 hm rfl, State.addressSum, sibIndex_eq_mul]
  · rw [access_seg, segmentOf_of_no_override (by simp)]
    exact stackSegment_num4 bb b

/-- Settles O38: each row of the table names the register sum and the default segment of its rm. -/
theorem sixteenBitAddresses : Obligations.SixteenBitAddresses := by
  intro s f xb bb len d v hm
  have hbits : addressingBits s.mode [.addrSize] = 16 := by rw [hm]; rfl
  refine ⟨fun rm sum g h => ?_, ?_⟩
  · have hrow : s.base16 rm = sum ∧ defaultSegment bb (.base16 rm d) = g := by
      simp only [List.mem_cons, Prod.mk.injEq, List.not_mem_nil, or_false] at h
      rcases h with ⟨rfl, rfl, rfl⟩ | ⟨rfl, rfl, rfl⟩ | ⟨rfl, rfl, rfl⟩ | ⟨rfl, rfl, rfl⟩ | ⟨rfl, rfl, rfl⟩ |
        ⟨rfl, rfl, rfl⟩ | ⟨rfl, rfl, rfl⟩ | ⟨rfl, rfl, rfl⟩ <;> exact ⟨rfl, rfl⟩
    rw [State.access, State.effectiveAddress, hbits, State.addressSum, hrow.1, segmentOf_of_no_override (by simp),
      hrow.2]
    cases d with
    | d8 b => cases f <;> rfl
    | none => rfl
    | d16 w => rfl
  · rw [State.access, State.effectiveAddress, hbits, State.addressSum, truncate_16_setWidth]
    rfl

/-- Settles O52: each sum at both addressing widths, with the index term as a product. -/
theorem baseAndSibAddresses : Obligations.BaseAndSibAddresses := by
  intro s f pre xb bb len scale index b d v disp idx hdisp hidx
  have hd : Disp.value (Form.dispScale f) d = disp := by
    rw [hdisp]
    cases d with
    | d8 x => cases f <;> rfl
    | none => rfl
    | d32 x => rfl
  have hi : s.sibIndex xb scale index = idx := by rw [hidx, sibIndex_eq_mul]
  refine ⟨fun hm hp => ?_, fun h => ?_⟩
  · simp only [access_ea_64 hm hp, State.addressSum, hd, hi, and_self]
  · have hbits : addressingBits s.mode pre = 32 := by
      rcases h with ⟨hm, hp⟩ | ⟨hm, hp⟩
      · rw [hm, addressingBits_bits64, hp]; rfl
      · rw [hm, addressingBits_prot32, hp]; rfl
    rw [access_ea, access_ea, access_ea, hbits]
    simp only [State.addressSum, hd, hi, truncate, and_self]

/-- Settles O53: the sum at each address width, over the base of each segment. -/
theorem operandAddressIsSegmentBasePlusEffectiveAddress :
    Obligations.OperandAddressIsSegmentBasePlusEffectiveAddress := by
  intro s a
  obtain ⟨g, ea⟩ := a
  refine ⟨fun hm => ?_, fun hm => ?_⟩
  · rw [operandAddress_bits64 hm]
    cases g with
    | fs => rw [segBase_fs_gs s (.inl rfl)]; rfl
    | gs => rw [segBase_fs_gs s (.inr rfl)]; rfl
    | _ => rw [segBase_flat hm (by simp)]
  · rw [operandAddress_of_ne_bits64 hm, segBase_of_ne_bits64 hm]
    cases g <;> rfl

/-- Settles O54: overrides that agree leave one choice; of several the free value picks one. -/
theorem segmentIsTheOneAnOverrideNames : Obligations.SegmentIsTheOneAnOverrideNames := by
  intro s f pre xb bb len m
  refine ⟨fun g hg => segmentOf_mem hg _ _ _, fun g hg hall => hall _ (segmentOf_mem hg _ _ _), fun hnone => ?_⟩
  rw [access_seg, segmentOf_of_no_override hnone]
  cases m with
  | base b d => exact stackSegment_num4 bb b
  | sib scale index b d => exact stackSegment_num4 bb b
  | _ => rfl

end

section
/-! PROOFS. What the decoder refuses and what it needs to read: reserved encodings, over-long ones, and the registers
that exist outside 64-bit mode (30_encoding.md sections 2, 4, 5 and 8). -/

namespace Sys2Proof

/-! ## Reserved encodings -/

/-- All but REX exist in every mode. -/
theorem existsIn_of_rex {m : Mode} {pre : List Prefix} (h : ∀ r, .rex r ∈ pre → m = .bits64) :
    ∀ p ∈ pre, p.existsIn m = true := by
  intro p hp
  cases p with
  | rex r => simp [Prefix.existsIn, h r hp]
  | _ => rfl

theorem any_isReserved_of_mem {pre : List Prefix} (h : .lock ∈ pre ∨ .repne ∈ pre ∨ .rep ∈ pre) :
    pre.any Prefix.isReserved = true := by
  rw [List.any_eq_true]
  rcases h with h | h | h <;> exact ⟨_, h, rfl⟩

theorem not_all_beforeVex_of_mem {pre : List Prefix}
    (h : .lock ∈ pre ∨ .opSize ∈ pre ∨ .repne ∈ pre ∨ .rep ∈ pre ∨ ∃ r, .rex r ∈ pre) :
    (!pre.all Prefix.beforeVex) = true := by
  rw [Bool.not_eq_true', List.all_eq_false]
  rcases h with h | h | h | h | ⟨r, h⟩ <;> exact ⟨_, h, by simp [Prefix.beforeVex]⟩

theorem extractLsb'_2_2_eq_zero : ∀ b : Byte, b.extractLsb' 2 2 = 0 → b.getLsbD 2 = false ∧ b.getLsbD 3 = false := by
  decide

theorem extractLsb'_5_2_eq_three : ∀ b : Byte, b.getLsbD 5 = true → b.getLsbD 6 = true → b.extractLsb' 5 2 = 3 := by
  decide

/-- Each pattern that R92 reserves is found. -/
theorem evexReserved_of_pattern {p0 p1 p2 : Byte}
    (h : p0.getLsbD 2 = true ∨ p0.getLsbD 3 = true ∨ p1.getLsbD 2 = false ∨
      (p2.getLsbD 5 = true ∧ p2.getLsbD 6 = true) ∨ p2.getLsbD 4 = true ∨
      (p2.getLsbD 7 = true ∧ p2.extractLsb' 0 3 = 0)) : evexReserved p0 p1 p2 = true := by
  by_contra hres
  obtain ⟨h0, h1, hb, hll, hz⟩ := (evexReserved_eq_false p0 p1 p2).1 (Bool.eq_false_iff.2 hres)
  obtain ⟨h02, h03⟩ := extractLsb'_2_2_eq_zero p0 h0
  rcases h with h | h | h | ⟨h5, h6⟩ | h | h
  · exact nomatch h.symm.trans h02
  · exact nomatch h.symm.trans h03
  · exact nomatch h1.symm.trans h
  · exact hll (extractLsb'_5_2_eq_three p2 h5 h6)
  · exact nomatch h.symm.trans hb
  · exact hz h

/-- A reserved pattern is #UD whatever the other bits are. -/
theorem decode_evexReserved {m : Mode} {pre : List Prefix} {p0 p1 p2 : Byte} {reg : BitVec 3} {rm : RM}
    (rest : List Byte) (hp : ∀ p ∈ pre, p.existsIn m = true) (hrm : rm.wf (addr16 m pre) = true)
    (hlen : encodedLen pre 5 rm ≤ maxLen) (hm : m = .bits64 ∨ p0.extractLsb' 6 2 = 0b11#2)
    (hmap : p0.extractLsb' 0 2 = 0b10#2) (hpp : p1.extractLsb' 0 2 = 0b01#2) (hres : evexReserved p0 p1 p2 = true) :
    decode m (pre.map Prefix.toByte ++ [0x62, p0, p1, p2, 0x0B] ++ encodeModRM reg rm ++ rest) = .error .invalid := by
  have h0 : Prefix.ofByte m 0x62 = none := by cases m <;> decide
  have hi : isVexIntroduced m p0 = true := by
    simp only [isVexIntroduced, Bool.or_eq_true, beq_iff_eq]
    exact hm
  have heq : pre.map Prefix.toByte ++ [0x62, p0, p1, p2, 0x0B] ++ encodeModRM reg rm ++ rest =
      pre.map Prefix.toByte ++ 0x62 :: (p0 :: p1 :: p2 :: 0x0B :: (encodeModRM reg rm ++ rest)) := by simp
  rw [heq, decode, scanPrefixes_append m pre hp _ _ h0]
  simp only [decodeBody, nextByte, decodeEvex, hi, hmap, hpp, withModRM_encode _ _ _ _ _ _ _ hrm,
    if_neg (Nat.not_lt.2 hlen), hres]
  rfl

/-! ## Reading more bytes -/

/-- What a parser read from some bytes it reads from them with `t` behind, and `t` is left over too. -/
def ReadMore {α : Type} (t : List Byte) (x y : Option (α × List Byte)) : Prop :=
  x = none ∨ y = x.map fun r => (r.1, r.2 ++ t)

theorem ReadMore.map {α β : Type} {t : List Byte} {x y : Option (α × List Byte)} (h : ReadMore t x y) (f : α → β) :
    ReadMore t (x.map fun r => (f r.1, r.2)) (y.map fun r => (f r.1, r.2)) := by
  rcases h with rfl | rfl
  · exact .inl rfl
  · cases x <;> exact .inr rfl

theorem take32_more (bs t : List Byte) : ReadMore t (take32 bs) (take32 (bs ++ t)) := by
  match bs with
  | [] | [_] | [_, _] | [_, _, _] => exact .inl rfl
  | _ :: _ :: _ :: _ :: _ => exact .inr rfl

theorem take16_more (bs t : List Byte) : ReadMore t (take16 bs) (take16 (bs ++ t)) := by
  match bs with
  | [] | [_] => exact .inl rfl
  | _ :: _ :: _ => exact .inr rfl

theorem parseDisp_more (mod : BitVec 2) (bs t : List Byte) :
    ReadMore t (parseDisp mod bs) (parseDisp mod (bs ++ t)) := by
  unfold parseDisp
  split_ifs
  · exact .inr rfl
  · cases bs
    · exact .inl rfl
    · exact .inr rfl
  · exact (take32_more bs t).map _

theorem parseDisp16_more (mod : BitVec 2) (bs t : List Byte) :
    ReadMore t (parseDisp16 mod bs) (parseDisp16 mod (bs ++ t)) := by
  unfold parseDisp16
  split_ifs
  · exact .inr rfl
  · cases bs
    · exact .inl rfl
    · exact .inr rfl
  · exact (take16_more bs t).map _

theorem parseSib_more (mod : BitVec 2) (bs t : List Byte) : ReadMore t (parseSib mod bs) (parseSib mod (bs ++ t)) := by
  cases bs with
  | nil => exact .inl rfl
  | cons s bs =>
    simp only [List.cons_append, parseSib]
    split_ifs
    · exact (take32_more bs t).map _
    · exact (parseDisp_more mod bs t).map _

theorem parseRM_more (a16 : Bool) (mod : BitVec 2) (rm : BitVec 3) (bs t : List Byte) :
    ReadMore t (parseRM a16 mod rm bs) (parseRM a16 mod rm (bs ++ t)) := by
  unfold parseRM
  split_ifs
  · exact .inr rfl
  · refine ReadMore.map ?_ _
    unfold parseMem
    split_ifs
    · exact (take16_more bs t).map _
    · exact (parseDisp16_more mod bs t).map _
    · exact parseSib_more mod bs t
    · exact (take32_more bs t).map _
    · exact (parseDisp_more mod bs t).map _

/-- What the decoder answers for some bytes it answers for them with `t` behind, unless it needs more bytes. -/
def DecodesMore (t : List Byte) (x y : Decoded) : Prop :=
  x = .error .truncated ∨ y = x.map fun r => (r.1, r.2 ++ t)

theorem DecodesMore.error (t : List Byte) (e : DecodeError) : DecodesMore t (.error e) (.error e) := .inr rfl

theorem DecodesMore.ite {t : List Byte} {x y x' y' : Decoded} (c : Prop) [Decidable c] (h : DecodesMore t x y)
    (h' : DecodesMore t x' y') : DecodesMore t (if c then x else x') (if c then y else y') := by
  split
  · exact h
  · exact h'

theorem nextByte_more {t : List Byte} (bs : List Byte) {f : Byte → List Byte → Decoded}
    (h : ∀ b u, DecodesMore t (f b u) (f b (u ++ t))) : DecodesMore t (nextByte bs f) (nextByte (bs ++ t) f) := by
  cases bs with
  | nil => exact .inl rfl
  | cons b u => exact h b u

theorem withModRM_more (m : Mode) (pre : List Prefix) (fixed : Nat) (bs t : List Byte)
    (judge : BitVec 3 → RM → Except DecodeError Instr) :
    DecodesMore t (withModRM m pre fixed bs judge) (withModRM m pre fixed (bs ++ t) judge) := by
  refine nextByte_more bs fun b u => ?_
  have hrm := parseRM_more (addr16 m pre) (b.extractLsb' 6 2) (b.extractLsb' 0 3) u t
  cases hu : parseRM (addr16 m pre) (b.extractLsb' 6 2) (b.extractLsb' 0 3) u with
  | none => exact .inl rfl
  | some r =>
    rcases hrm with h | h
    · simp [hu] at h
    · rw [h, hu]
      refine DecodesMore.ite _ (.error t _) ?_
      cases judge (b.extractLsb' 3 3) r.1 <;> exact .inr rfl

/-- Each shape reads its bytes one by one, so that more bytes behind change nothing. -/
theorem decodeBody_more (m : Mode) (pre : List Prefix) (bs t : List Byte) :
    DecodesMore t (decodeBody m pre bs) (decodeBody m pre (bs ++ t)) := by
  refine nextByte_more bs fun b u => .ite _ ?_ (.ite _ ?_ (.ite _ ?_ (.error t _)))
  · exact nextByte_more u fun _ _ => .ite _ (.error t _) <| nextByte_more _ fun _ _ => .ite _ (.error t _) <|
      withModRM_more ..
  · exact nextByte_more u fun _ _ => .ite _ (.error t _) <| nextByte_more _ fun _ _ => nextByte_more _ fun _ _ =>
      .ite _ (.error t _) <| withModRM_more ..
  · exact nextByte_more u fun _ _ => .ite _ (.error t _) <| nextByte_more _ fun _ _ => nextByte_more _ fun _ _ =>
      nextByte_more _ fun _ _ => .ite _ (.error t _) <| withModRM_more ..

/-- The scan stops at the same byte with more bytes behind it. -/
theorem scanPrefixes_more {m : Mode} {bs : List Byte} (t : List Byte) (h : (scanPrefixes m bs).2 ≠ []) :
    scanPrefixes m (bs ++ t) = ((scanPrefixes m bs).1, (scanPrefixes m bs).2 ++ t) := by
  induction bs with
  | nil => exact absurd rfl h
  | cons b bs ih =>
    simp only [List.cons_append, scanPrefixes] at h ⊢
    cases hp : Prefix.ofByte m b with
    | none => rfl
    | some p =>
      rw [hp] at h
      simp only [ih h]

theorem decode_more (m : Mode) (bs t : List Byte) : DecodesMore t (decode m bs) (decode m (bs ++ t)) := by
  by_cases h : (scanPrefixes m bs).2 = []
  · left
    rw [decode, h]
    rfl
  · rw [decode, decode, scanPrefixes_more t h]
    exact decodeBody_more m _ _ t

/-- The first bytes of an over-long encoding are over-long, or end inside it. -/
theorem decode_take_of_tooLong {m : Mode} {bs : List Byte} (h : decode m bs = .error .tooLong) (n : Nat) :
    decode m (bs.take n) = .error .truncated ∨ decode m (bs.take n) = .error .tooLong := by
  refine (decode_more m (bs.take n) (bs.drop n)).imp_right fun hmore => ?_
  rw [List.take_append_drop, h] at hmore
  cases hd : decode m (bs.take n) with
  | ok r => simp [hd, Except.map] at hmore
  | error e =>
    rw [hd] at hmore
    cases hmore
    rfl

theorem length_encodeLegacy (pre : List Prefix) (reg : BitVec 3) (rm : RM) :
    (encodeLegacy pre reg rm).length = encodedLen pre 3 rm := Laws.EncodedLength.pmulhrswMm pre reg rm

theorem length_encodeVex (l : BitVec 1) (pre : List Prefix) (v : Vex) (reg : BitVec 3) (rm : RM) :
    (encodeVex l pre v reg rm).length = encodedLen pre 4 rm := by
  simp only [encodeVex, encodeModRM, encodedLen, List.length_append, List.length_map, List.length_cons,
    List.length_nil, Laws.length_tail]
  omega

theorem length_encodeEvex (ll : BitVec 2) (pre : List Prefix) (e : Evex) (reg : BitVec 3) (rm : RM) :
    (encodeEvex ll pre e reg rm).length = encodedLen pre 5 rm := by
  simp only [encodeEvex, encodeModRM, encodedLen, List.length_append, List.length_map, List.length_cons,
    List.length_nil, Laws.length_tail]
  omega

/-! ## Registers outside 64-bit mode -/

/-- Outside 64-bit mode no REX acts on a legacy form. -/
theorem effectiveRex_of_ne_bits64 {m : Mode} {pre : List Prefix} (hm : m ≠ .bits64) (h : legacyPrefixes m pre = true) :
    effectiveRex pre = ⟨false, false, false, false⟩ := by
  unfold effectiveRex
  split
  · next r hr =>
    have hexists := existsIn_of_legacyPrefixes h _ (List.mem_of_getLast? hr)
    simp [Prefix.existsIn, hm] at hexists
  · rfl

open Machine in
theorem num5_lt_eight : ∀ r : BitVec 3, num5 false false r < 8 := by decide

/-- A vvvv whose top bit is 0 names one of registers 0 to 7. -/
theorem setWidth_lt_eight : ∀ v : BitVec 4, v.getLsbD 3 = false → v.setWidth 5 < 8 := by decide

theorem append_lt_eight : ∀ v : BitVec 4, v.getLsbD 3 = false → BitVec.ofBool false ++ v < 8 := by decide

theorem Vex.fields_of_wf {m : Mode} {v : Vex} (hm : m ≠ .bits64) (h : v.wf m = true) :
    v.r = false ∧ v.b = false ∧ v.vvvv.getLsbD 3 = false := by
  have hext := (Vex.wf_iff m v).1 h
  simp_all [Vex.extended]

theorem Evex.fields_of_wf {m : Mode} {e : Evex} (hm : m ≠ .bits64) (h : e.wf m = true) :
    e.r = false ∧ e.x = false ∧ e.b = false ∧ e.rr = false ∧ e.vv = false ∧ e.vvvv.getLsbD 3 = false := by
  have hext := ((Evex.wf_iff m e).1 h).1
  simp_all [Evex.extended]

end Sys2Proof

namespace Sys2Proof.Machine

/-- A step that fetches a reserved encoding raises #UD. -/
theorem step_of_invalid {s : State} {m : Mode} {bs : List Byte} (h : decode m bs = .error .invalid) (hs : s.mode = m)
    (hm : m = .bits64 ∨ m = .prot32 ∨ s.config.otherModes = true) (hbs : s.fetchWindow.1 = bs) :
    step s = .fault .invalidOpcode := by
  subst hs hbs
  rw [step_of_decode_error ((modeRefused_eq_false s).2 hm) h]
  rfl

end Sys2Proof.Machine

open Sys2Proof Sys2Proof.Machine

/-- Settles O42: the length passes and the check for LOCK, F2 and F3 is the next. -/
theorem reservedLegacyPrefixIsInvalid : Obligations.ReservedLegacyPrefixIsInvalid := by
  intro m pre reg rm rest hrex hrm hlen hres
  have hlen' : ¬ maxLen < encodedLen pre 3 rm := by rw [encodedLen, maxLen]; omega
  have h : decode m (encodeLegacy pre reg rm ++ rest) = .error .invalid := by
    rw [decode_encodeLegacy m pre reg rm rest (existsIn_of_rex hrex) hrm, if_neg hlen',
      if_pos (any_isReserved_of_mem hres)]
  exact ⟨h, fun s hs hm hbs => step_of_invalid h hs hm hbs⟩

/-- Settles O43: the check of the prefixes before VEX and EVEX comes before that of the extension bits. -/
theorem reservedPrefixBeforeVexOrEvexIsInvalid : Obligations.ReservedPrefixBeforeVexOrEvexIsInvalid := by
  intro m pre v e l ll reg rm rest hrex hrm hres
  have hp := existsIn_of_rex hrex
  have hbefore := not_all_beforeVex_of_mem hres
  refine ⟨fun hm hlen => ?_, fun hm hlen => ?_⟩
  · have hlen' : ¬ maxLen < encodedLen pre 4 rm := by rw [encodedLen, maxLen]; omega
    have h : decode m (encodeVex l pre v reg rm ++ rest) = .error .invalid := by
      rw [decode_encodeVex m pre v l reg rm rest hp hrm hm, if_neg hlen', if_pos hbefore]
    exact ⟨h, fun s hs hm hbs => step_of_invalid h hs hm hbs⟩
  · have hlen' : ¬ maxLen < encodedLen pre 5 rm := by rw [encodedLen, maxLen]; omega
    have h : decode m (encodeEvex ll pre e reg rm ++ rest) = .error .invalid := by
      rw [decode_encodeEvex m pre e ll reg rm rest hp hrm hm, if_neg hlen', if_pos hbefore, ite_self]
    exact ⟨h, fun s hs hm hbs => step_of_invalid h hs hm hbs⟩

/-- Settles O44: the reserved patterns are judged right after the length. -/
theorem reservedEvexPatternsAreInvalid : Obligations.ReservedEvexPatternsAreInvalid := by
  intro m pre p0 p1 p2 reg rm rest hrex hrm hlen hm hmap hpp hpattern
  have hlen' : encodedLen pre 5 rm ≤ maxLen := by rw [encodedLen, maxLen]; omega
  have h := decode_evexReserved (reg := reg) rest (existsIn_of_rex hrex) hrm hlen' hm hmap hpp
    (evexReserved_of_pattern hpattern)
  exact ⟨h, fun s hs hm hbs => step_of_invalid h hs hm hbs⟩

/-- Settles O45: the whole encoding is too long, so its first 15 bytes are too or end inside it, and the window says
that they are the limit. -/
theorem overlongInstructionIsGeneralProtection : Obligations.OverlongInstructionIsGeneralProtection := by
  intro s pre v l e ll reg rm bytes hm hrex hrm hbytes hlen hwindow
  have hp := existsIn_of_rex hrex
  have hlong : decode s.mode bytes = .error .tooLong := by
    rw [← List.append_nil bytes]
    rcases hbytes with rfl | ⟨rfl, hfields⟩ | ⟨rfl, hfields⟩
    · rw [length_encodeLegacy] at hlen
      rw [decode_encodeLegacy _ pre reg rm [] hp hrm]
      exact if_pos hlen
    · rw [length_encodeVex] at hlen
      rw [decode_encodeVex _ pre v l reg rm [] hp hrm hfields]
      exact if_pos hlen
    · rw [length_encodeEvex] at hlen
      rw [decode_encodeEvex _ pre e ll reg rm [] hp hrm hfields]
      exact if_pos hlen
  have hstep := fun e h => step_of_decode_error (s := s) (e := e) ((modeRefused_eq_false s).2 hm) h
  rw [hwindow] at hstep
  rcases decode_take_of_tooLong hlong 15 with h | h
  · rw [hstep _ h]
    rfl
  · rw [hstep _ h]
    rfl

/-- Settles O39: outside 64-bit mode every extension bit of a well-formed instruction is 0. -/
theorem onlyRegistersBelow8OutsideBits64 : Obligations.OnlyRegistersBelow8OutsideBits64 := by
  intro m pre reg rm v e r hm
  refine ⟨fun h => ?_, fun h => ?_, fun h => ?_⟩
  · have hpre : legacyPrefixes m pre = true := by
      simp only [Instr.wf, Bool.and_eq_true] at h
      obtain ⟨-, ⟨hpre, -⟩, -⟩ := h
      exact hpre
    rw [effectiveRex_of_ne_bits64 hm hpre]
    exact ⟨num5_lt_eight reg, num5_lt_eight r⟩
  · have hv : v.wf m = true := by
      simp only [Instr.wf, Bool.and_eq_true] at h
      rcases h with ⟨-, ⟨-, hv⟩, -⟩ | ⟨-, ⟨-, hv⟩, -⟩ <;> exact hv
    obtain ⟨hr, hb, hvvvv⟩ := Vex.fields_of_wf hm hv
    rw [hr, hb]
    exact ⟨num5_lt_eight reg, setWidth_lt_eight _ hvvvv, num5_lt_eight r⟩
  · have he : e.wf m = true := by
      simp only [Instr.wf, Bool.and_eq_true] at h
      rcases h with ⟨-, ⟨-, he⟩, -⟩ | ⟨-, ⟨-, he⟩, -⟩ | ⟨-, ⟨-, he⟩, -⟩ <;> exact he
    obtain ⟨hr, hx, hb, hrr, hvv, hvvvv⟩ := Evex.fields_of_wf hm he
    rw [hr, hx, hb, hrr, Evex.source1, hvv]
    exact ⟨num5_lt_eight reg, append_lt_eight _ hvvvv, num5_lt_eight r⟩

/-- Settles O46: each word by computation. -/
theorem decodingOfTheSpecsWords : Obligations.DecodingOfTheSpecsWords :=
  ⟨by decide, by decide, by decide, by decide, by decide, by decide⟩

end

section
/-! PROOFS. Fetching: a step runs the instruction that memory holds, and what can run straight after reset. -/

namespace Sys2Proof.Machine

/-! ## Fetched bytes -/

theorem length_encode (i : Instr) : (encode i).length = i.len := by
  cases i with
  | pmulhrswMm => exact length_encodeLegacy _ _ _
  | pmulhrswXmm => exact length_encodeLegacy _ _ _
  | vpmulhrswVex128 => exact length_encodeVex _ _ _ _ _
  | vpmulhrswVex256 => exact length_encodeVex _ _ _ _ _
  | vpmulhrswEvex128 => exact length_encodeEvex _ _ _ _ _
  | vpmulhrswEvex256 => exact length_encodeEvex _ _ _ _ _
  | vpmulhrswEvex512 => exact length_encodeEvex _ _ _ _ _

/-- Bytes that memory holds and that can be fetched are the first that are fetched. -/
theorem fetchFrom_of_held {s : State} {bs : List Byte} {a n : Nat} (hn : bs.length ≤ n)
    (h : ∀ i (hi : i < bs.length), s.translate .fetch .cs (a + i) = .readable ∧ Memory.read s.mem (a + i) = bs[i]) :
    ∃ rest, (s.fetchFrom a n).1 = bs ++ rest := by
  induction bs generalizing a n with
  | nil => exact ⟨_, rfl⟩
  | cons b bs ih =>
    cases n with
    | zero => simp at hn
    | succ n =>
      obtain ⟨rest, hrest⟩ := ih (a := a + 1) (n := n) (by simpa using hn) fun i hi => by
        have := h (i + 1) (by simpa using hi)
        rwa [Nat.add_assoc, Nat.add_comm 1]
      obtain ⟨hread, hbyte⟩ := h 0 (by simp)
      rw [Nat.add_zero] at hread hbyte
      refine ⟨rest, ?_⟩
      rw [State.fetchFrom, hread]
      simp only [State.fetchStop, hbyte, hrest]
      rfl

/-- A step runs the instruction that its window decodes to. -/
theorem step_of_decode {s : State} {i : Instr} {rest : List Byte} (hm : s.modeRefused = false)
    (h : decode s.mode s.fetchWindow.1 = .ok (i, rest)) : step s = exec i s := by
  simp [step, hm, h]

/-! ## The word placed for the next fetch -/

theorem length_tableBytes (nbits w : Nat) : (tableBytes nbits w).length = 15 := by
  simp only [tableBytes, List.length_append, List.length_map, List.length_range, List.length_replicate, maxLen]
  omega

/-- In the modes of the spec placing a word changes memory at the next fetch and nothing else (log 5). -/
theorem withFetchWord_eq {s : State} (hm : s.mode = .bits64 ∨ s.mode = .prot32) (nbits w : Nat) :
    s.withFetchWord nbits w = s.loadAtPc (tableBytes nbits w) := by
  have hscope : modeInScope s.mode = true := by rcases hm with h | h <;> rw [h] <;> rfl
  rw [State.withFetchWord, State.bootIfNeeded, if_pos hscope]

/-! ## Straight after reset -/

/-- The reset state with any memory. -/
def State.resetWith (mem : List Host.Cell) : State := { State.reset with mem := mem }

theorem resetWith_mode (mem : List Host.Cell) : (State.resetWith mem).mode = .real :=
  (by decide : State.reset.mode = .real)

/-- Straight after reset F-MMX is ready. -/
theorem ready_reset {len : Nat} (h : len ≤ 15) : Ready .mmx len State.reset where
  mode := .inr (.inr rfl)
  protectedMode h := absurd rfl h
  pcBelowTop := by
    have hpc : State.reset.pc.toNat = 0xFFF0 := rfl
    rw [if_neg (by decide), hpc]
    omega
  ssse3 _ := rfl
  avx h := nomatch h
  avx2 h := nomatch h
  avx512bw h := by simp at h
  avx512vl h := by simp at h
  width := by decide
  em _ := by decide
  ts := by decide
  osfxsr h := nomatch h
  osxsave h := absurd rfl h
  xcr0Avx h := absurd rfl h
  xcr0Avx512 h := by simp at h
  noPending _ := rfl

/-- In the reset state the gate of every form but F-MMX stops: CR4.OSFXSR is 0, and the mode is real-address mode. -/
theorem form_of_gate_resetWith {mem : List Host.Cell} {f : Form} {len : Nat}
    (h : (State.resetWith mem).gate f len = none) : f = .mmx := by
  obtain ⟨-, -, hmode, -, -, hos, -⟩ := (gate_eq_none _ _ _).1 h
  have hosfxsr : (State.resetWith mem).osfxsr = false := (by decide : State.reset.osfxsr = false)
  rw [resetWith_mode] at hmode
  cases f with
  | mmx => rfl
  | sse => simp [State.osEnabledUd, hosfxsr] at hos
  | vex128 | vex256 | evex128 | evex256 | evex512 => cases hmode

end Sys2Proof.Machine

open Sys2Proof Sys2Proof.Machine

/-- Settles O47: the decoded instruction is the last thing a step looks up. -/
theorem stepRunsTheDecodedInstruction : Obligations.StepRunsTheDecodedInstruction :=
  fun s _ _ hm h => step_of_decode ((modeRefused_eq_false s).2 hm) h

/-- Settles O48: the window begins with the encoding, which decodes whatever follows it. -/
theorem stepRunsTheInstructionInMemory : Obligations.StepRunsTheInstructionInMemory := by
  intro s i hm hwf hheld
  have hlen : (encode i).length ≤ maxLen := (length_encode i).trans_le (len_le_of_wf hwf)
  obtain ⟨rest, hrest⟩ := fetchFrom_of_held hlen hheld
  refine step_of_decode (rest := rest) ((modeRefused_eq_false s).2 hm) ?_
  rw [State.fetchWindow, hrest, decode_encode hwf]

/-- Settles O49: the table by computation. -/
theorem resetStateOfTheTable : Obligations.ResetStateOfTheTable := by
  refine ⟨fun n => ?_, fun n => ?_, ?_⟩
  · simp [State.reset]
  · simp [State.reset, State.v]
  · decide

/-- Settles O50: only F-MMX passes its gate in the reset state. -/
theorem onlyMmxRunsStraightAfterReset : Obligations.OnlyMmxRunsStraightAfterReset := by
  refine ⟨fun len hlen => ready_reset hlen, fun mem t h => ?_⟩
  obtain ⟨-, i, rest, hdecode, hi⟩ := (step_eq_next (State.resetWith mem) t).1 h
  obtain ⟨pre, reg, rm, rfl⟩ := (form_eq_mmx_iff i).1 (form_of_gate_resetWith (exec_written hi).1)
  rw [resetWith_mode] at hdecode
  exact ⟨pre, reg, rm, rest, hdecode, hi⟩

/-- Settles O51: the stored bytes read back, and the fetch addresses do not depend on memory. -/
theorem placedWordIsFetched : Obligations.PlacedWordIsFetched := by
  intro s nbits w hm hwf hreadable
  rw [withFetchWord_eq hm]
  have hlen := length_tableBytes nbits w
  refine ⟨?_, fun a ha => Memory.read_writeBytes_outside _ _ _ hwf (by rwa [hlen])⟩
  have hfetch := fetchFrom_of_readable (s.loadAtPc (tableBytes nbits w)) s.fetchAddress maxLen hreadable
  refine hfetch.trans (Prod.ext (List.ext_getElem ?_ fun i hi hi' => ?_) rfl)
  · simp [hlen, maxLen]
  · rw [List.getElem_map, List.getElem_range]
    exact Memory.read_writeBytes _ _ _ hwf hi'

end
